-- ==== Sys2Proof/Word.lean ====
section
/-! DEFINITION. The widths of the block's quantities (45_arithmetic_access_system R210): bytes, 16-bit addresses, 32-bit
transaction words, and fixed-size tables of pixels. Everything is unsigned; address arithmetic wraps modulo 65536
because `Addr` is a bit vector (R211). -/
namespace Sys2Proof

/-- A byte of `MEM`, `ROM`, `KBD`, a display byte, a glyph row, `port` or `rowsel` (R210). -/
abbrev Byte := BitVec 8

/-- ADDR_BITS, the width of a memory address (00_scope R6). -/
abbrev addrBits : Nat := 16

/-- A memory address, the display-file pointer `D` or the cursor `cur` (R210). -/
abbrev Addr := BitVec addrBits

/-- A transaction word (30_encoding R92). -/
abbrev Word := BitVec 32

/-- The table of `n` entries whose entry `i` is `f i`. -/
def tabulate {α : Type} (n : Nat) (f : Nat → α) : Vector α n :=
  ⟨((List.range n).map f).toArray, by simp⟩

end Sys2Proof
end

