-- ==== Sys2Proof/Config.lean ====
section
/-! DEFINITION. The named constants of 00_scope R6 in one record, the open parameters of 00_scope R7 as one configuration
record, and the free values (constants with no body). The configuration is a field of the session's state (log 3), so that
a statement about every state is a statement about every parameter set. -/
namespace Sys2Proof

/-- The literals of 00_scope R6, in its order; ROM_SIZE, which the document gives as an example, is a field of `Config`,
and ADDR_BITS is Word.lean's. -/
structure Literals where
  protBoundary : Nat
  kbdRows : Nat
  kbdSlots : Nat
  kbdCols : Nat
  eraseRowA : Nat
  eraseColA : Nat
  eraseRowB : Nat
  eraseColB : Nat
  dispRows : Nat
  dispCols : Nat
  lineStride : Nat
  glyphPx : Nat
  scale : Nat
  nTiles : Nat
  framePeriod : Nat
  floatByte : Byte

/-- The documented values (R6): the one place where each literal stands (log 28). -/
abbrev literals : Literals where
  protBoundary := 0x4000
  kbdRows := 8
  kbdSlots := 9
  kbdCols := 5
  eraseRowA := 0
  eraseColA := 0
  eraseRowB := 4
  eraseColB := 0
  dispRows := 24
  dispCols := 32
  lineStride := 33
  glyphPx := 8
  scale := 2
  nTiles := 256
  framePeriod := 20
  floatByte := 0xFF

/-- PROT_BOUNDARY, the first writable address (R6). -/
abbrev Config.protBoundary : Nat := literals.protBoundary

/-- KBD_ROWS, the matrix rows (R6). -/
abbrev Config.kbdRows : Nat := literals.kbdRows

/-- KBD_SLOTS, the bytes of the matrix, the dummy slot the last (R6). -/
abbrev Config.kbdSlots : Nat := literals.kbdSlots

/-- KBD_COLS, the meaningful bits of a row (R6). -/
abbrev Config.kbdCols : Nat := literals.kbdCols

/-- DISP_ROWS, character rows per frame (R6). -/
abbrev Config.dispRows : Nat := literals.dispRows

/-- DISP_COLS, character columns per row (R6). -/
abbrev Config.dispCols : Nat := literals.dispCols

/-- LINE_STRIDE, bytes from one row's first cell to the next row's (R6). -/
abbrev Config.lineStride : Nat := literals.lineStride

/-- GLYPH_PX, width and height of a source bitmap (R6). -/
abbrev Config.glyphPx : Nat := literals.glyphPx

/-- SCALE, the upscale factor (R6). -/
abbrev Config.scale : Nat := literals.scale

/-- CELL_PX, width and height of a cell and of a tile: `SCALE * GLYPH_PX` (R6). -/
abbrev Config.cellPx : Nat := Config.scale * Config.glyphPx

/-- N_TILES, tiles in the atlas (R6). -/
abbrev Config.nTiles : Nat := literals.nTiles

/-- FB_W: `DISP_COLS * CELL_PX` (R6). -/
abbrev Config.fbW : Nat := Config.dispCols * Config.cellPx

/-- FB_H: `DISP_ROWS * CELL_PX` (R6). -/
abbrev Config.fbH : Nat := Config.dispRows * Config.cellPx

/-- FRAME_PERIOD in milliseconds (R6). -/
abbrev Config.framePeriod : Nat := literals.framePeriod

/-- FLOAT_BYTE, the value of an unselected or unconnected port read (R6). -/
abbrev Config.floatByte : Byte := literals.floatByte

/-- The byte of a matrix slot in which no key is held (10_state R26). -/
def Config.releasedRow : Byte := 0xFF

/-- A row of the matrix (R6 KBD_ROWS). -/
abbrev Row := Fin Config.kbdRows

/-- A meaningful bit of a row (R6 KBD_COLS). -/
abbrev Col := Fin Config.kbdCols

/-- The first matrix bit of the erase alias (R6 ERASE_ROW_A, ERASE_BIT_A). -/
def Config.eraseBitA : Row × Col := (⟨literals.eraseRowA, by decide⟩, ⟨literals.eraseColA, by decide⟩)

/-- The second matrix bit of the erase alias (R6 ERASE_ROW_B, ERASE_BIT_B). -/
def Config.eraseBitB : Row × Col := (⟨literals.eraseRowB, by decide⟩, ⟨literals.eraseColB, by decide⟩)

/-- A colour: an opaque type with decidable equality (R7); only equality is used, the number is a name (log 21). -/
structure Colour where
  index : Nat
  deriving DecidableEq, Repr, Inhabited

/-- A key identifier, named by its transport code (30_encoding R93): KEYCODE is injective, so the code is the key
(log 4). A code that is no key's is a key the table does not map. -/
abbrev KeyId := BitVec 16

/-- A tile: CELL_PX rows of CELL_PX pixels (10_state R29, 30_encoding R90). -/
abbrev Tile := Vector (Vector Colour Config.cellPx) Config.cellPx

/-- The glyph atlas: N_TILES tiles (10_state R29). -/
abbrev Atlas := Vector Tile Config.nTiles

/-- The framebuffer: FB_H rows of FB_W pixels (10_state R31). -/
abbrev Frame := Vector (Vector Colour Config.fbW) Config.fbH

/-- The keyboard matrix: KBD_SLOTS bytes (10_state R23). -/
abbrev Matrix := Vector Byte Config.kbdSlots

/-- An entry of KEYTABLE: the key, and the row 0..7 and column 0..4 it drives (30_encoding R85). The ranges are those of
constraint R8 (f), held by the types (log 23). -/
structure KeyEntry where
  key : KeyId
  row : Row
  col : Col
  deriving DecidableEq, Repr

/-- The parameters of a session (00_scope R7, with ROM_SIZE of R6 and GLYPH_MSB_LEFT of 43_font_rasterizer R173). -/
structure Config where
  romSize : Nat
  mirrorOffset : Nat
  dfilePtrAddr : Addr
  charTableOffset : Nat
  nChars : Nat
  invOffset : Nat
  ink : Colour
  paper : Colour
  atlasFill : Colour
  glyphMsbLeft : Bool
  frameBudget : Nat
  keyTable : List KeyEntry
  eraseKey : KeyId
  exitFail : Int
  deriving DecidableEq, Repr

/-- Free value: a byte of MEM after the `n`-th failed reset, at an address (60_exceptions R222, log 15). -/
opaque Config.undefinedByte : Nat → Nat → Byte

/-- Free value: KBD after the `n`-th failed reset (60_exceptions R222, log 15). -/
opaque Config.undefinedMatrix : Nat → Matrix

/-- Free value: ATLAS after the `n`-th failed reset (43_font_rasterizer R177, log 15). -/
opaque Config.undefinedAtlas : Nat → Atlas

end Sys2Proof
end

