-- ==== Sys2Proof/Syntax.lean ====
section
/-! DEFINITION. The fifteen operations of 30_encoding R96, one constructor per row of spec/opcode_table.json, with the
operands of R93, and the pseudo-operations of the trace syntax (R100). -/
namespace Sys2Proof

/-- An operation and its operands (30_encoding R93). -/
inductive Instr where
  /-- `READ address -> byte` (40_bus_adapter R111). -/
  | read (address : Addr)
  /-- `WRITE address, byte` (R112). -/
  | write (address : Addr) (byte : Byte)
  /-- `PORTIN port, rowsel -> byte` on an even port (R114). -/
  | portinKbd (port rowsel : Byte)
  /-- `PORTIN port, rowsel -> byte` on an odd port (R116). -/
  | portinFloat (port rowsel : Byte)
  /-- `PORTOUT port, byte` (R117); `hi` is the field the operation ignores, kept so that no bit of the word is lost
  (R93, log 20). -/
  | portout (port byte hi : Byte)
  /-- `KEYDOWN key` (41_keyboard_matrix R131). -/
  | keydown (key : KeyId)
  /-- `KEYUP key` (R134). -/
  | keyup (key : KeyId)
  /-- `QUIT` (44_frame_scheduler R199). -/
  | quit
  /-- `DECODE` (42_display_decoder R150). -/
  | decode
  /-- `RASTERIZE` (43_font_rasterizer R170). -/
  | rasterize
  /-- `RESET` (70_reset_and_hazards R250). -/
  | reset
  /-- `FRAME` (44_frame_scheduler R190). -/
  | frame
  /-- `RUNCPU` (R192). -/
  | runcpu
  /-- `DRAIN` (R197). -/
  | drain
  /-- `PACE` (R201). -/
  | pace
  deriving DecidableEq, Repr

/-- The pseudo-operations of the trace syntax (30_encoding R100). -/
inductive Pseudo where
  /-- `TAP key`: press and release. -/
  | tap (key : KeyId)
  /-- `SCAN p -> byte`: a keyboard read of the single row `p`. -/
  | scan (row : Row)
  /-- `POKE16 addr, w`: two byte writes, low byte first. -/
  | poke16 (address : Addr) (value : BitVec 16)
  deriving DecidableEq, Repr

end Sys2Proof
end

