-- ==== Sys2Proof/WellFormed.lean ====
section
/-! DEFINITION. Which operands an operation admits. Widths are held by the types; what is left is the even/odd port bit
that tells the two PORTIN rows apart (30_encoding R94). -/
namespace Sys2Proof

/-- A port is even when its bit 0, the one bit that is decoded, is 0 (30_encoding R81). -/
def evenPort (port : Byte) : Bool := !port.getLsbD 0

/-- The operands of `i` are ones its row of the operation table admits (30_encoding R93, R94). -/
def Instr.wellFormed : Instr → Bool
  | .read _ => true
  | .write _ _ => true
  | .portinKbd port _ => evenPort port
  | .portinFloat port _ => !evenPort port
  | .portout _ _ _ => true
  | .keydown _ => true
  | .keyup _ => true
  | .quit => true
  | .decode => true
  | .rasterize => true
  | .reset => true
  | .frame => true
  | .runcpu => true
  | .drain => true
  | .pace => true

end Sys2Proof
end

