-- ==== Sys2Proof/Decode.lean ====
section
/-! DEFINITION. The transaction word (30_encoding R92 to R95, R98): a total decoder that refuses by name every word that
spells no operation, the encoder, the table of R94 as data, the expansions of the pseudo-operations (R100) and the trace
text (R99). -/
namespace Sys2Proof

/-- `op = W[31:28]` (R92). -/
def opField (w : Word) : BitVec 4 := w.extractLsb' 28 4

/-- `W[27:24]`, which must be zero (R92). -/
def zeroField (w : Word) : BitVec 4 := w.extractLsb' 24 4

/-- `hi = W[23:16]` (R92). -/
def hiField (w : Word) : Byte := w.extractLsb' 16 8

/-- `lo = W[15:8]` (R92). -/
def loField (w : Word) : Byte := w.extractLsb' 8 8

/-- `d = W[7:0]` (R92). -/
def dField (w : Word) : Byte := w.extractLsb' 0 8

/-- `a = W[23:8]`, `hi` the upper byte and `lo` the lower (R92). -/
def aField (w : Word) : Addr := w.extractLsb' 8 16

/-- Why a word spells no operation (R95). -/
inductive DecodeError where
  /-- `op` is 0xE or 0xF. -/
  | unassignedOp
  /-- `W[27:24]` is not zero. -/
  | zeroFieldNonzero
  /-- An operand field that must be 0 is not. -/
  | operandFieldNonzero
  deriving DecidableEq, Repr

/-- `i`, if the field `mustBeZero` is 0 (R93). -/
def ifZero {n : Nat} (mustBeZero : BitVec n) (i : Instr) : Except DecodeError Instr :=
  if mustBeZero = 0 then .ok i else .error .operandFieldNonzero

/-- The operation selected by `op`, with its operands (R93, R94). -/
def decodeOp (w : Word) : Except DecodeError Instr :=
  match (opField w).toNat with
  | 0x0 => ifZero (dField w) (.read (aField w))
  | 0x1 => .ok (.write (aField w) (dField w))
  | 0x2 =>
    ifZero (dField w)
      (if evenPort (loField w) then .portinKbd (loField w) (hiField w) else .portinFloat (loField w) (hiField w))
  | 0x3 => .ok (.portout (loField w) (dField w) (hiField w))
  | 0x4 => ifZero (dField w) (.keydown (aField w))
  | 0x5 => ifZero (dField w) (.keyup (aField w))
  | 0x6 => ifZero (w.extractLsb' 0 24) .quit
  | 0x7 => ifZero (w.extractLsb' 0 24) .decode
  | 0x8 => ifZero (w.extractLsb' 0 24) .rasterize
  | 0x9 => ifZero (w.extractLsb' 0 24) .reset
  | 0xA => ifZero (w.extractLsb' 0 24) .frame
  | 0xB => ifZero (w.extractLsb' 0 24) .runcpu
  | 0xC => ifZero (w.extractLsb' 0 24) .drain
  | 0xD => ifZero (w.extractLsb' 0 24) .pace
  | _ => .error .unassignedOp

/-- The operation a transaction word spells, or the name of the reason it spells none (R95). -/
def decode (w : Word) : Except DecodeError Instr :=
  if zeroField w = 0 then decodeOp w else .error .zeroFieldNonzero

/-- The word with the fields `op`, zero, `a` and `d` (R92). -/
def packWord (op : BitVec 4) (a : Addr) (d : Byte) : Word := op ++ (0#4 ++ (a ++ d))

/-- The transaction word of an operation (R93, R94). -/
def encode : Instr → Word
  | .read address => packWord 0x0 address 0
  | .write address byte => packWord 0x1 address byte
  | .portinKbd port rowsel => packWord 0x2 (rowsel ++ port) 0
  | .portinFloat port rowsel => packWord 0x2 (rowsel ++ port) 0
  | .portout port byte hi => packWord 0x3 (hi ++ port) byte
  | .keydown key => packWord 0x4 key 0
  | .keyup key => packWord 0x5 key 0
  | .quit => packWord 0x6 0 0
  | .decode => packWord 0x7 0 0
  | .rasterize => packWord 0x8 0 0
  | .reset => packWord 0x9 0 0
  | .frame => packWord 0xA 0 0
  | .runcpu => packWord 0xB 0 0
  | .drain => packWord 0xC 0 0
  | .pace => packWord 0xD 0 0

/-- A row of the operation table: a word is the row's when `W & mask = pattern` (R94). -/
structure TableRow where
  pattern : Word
  mask : Word
  deriving DecidableEq, Repr, Inhabited

/-- The word `w` is of the row `r` (R94). -/
def TableRow.hits (r : TableRow) (w : Word) : Bool := w &&& r.mask == r.pattern

/-- The operation table of R94, in its order. -/
def tableRows : List TableRow :=
  [⟨0x00000000, 0xFF0000FF⟩, ⟨0x10000000, 0xFF000000⟩, ⟨0x20000000, 0xFF0001FF⟩, ⟨0x20000100, 0xFF0001FF⟩,
   ⟨0x30000000, 0xFF000000⟩, ⟨0x40000000, 0xFF0000FF⟩, ⟨0x50000000, 0xFF0000FF⟩, ⟨0x60000000, 0xFFFFFFFF⟩] ++
  [⟨0x70000000, 0xFFFFFFFF⟩, ⟨0x80000000, 0xFFFFFFFF⟩, ⟨0x90000000, 0xFFFFFFFF⟩, ⟨0xA0000000, 0xFFFFFFFF⟩,
   ⟨0xB0000000, 0xFFFFFFFF⟩, ⟨0xC0000000, 0xFFFFFFFF⟩, ⟨0xD0000000, 0xFFFFFFFF⟩]

/-- The place in R94's table of the row an operation belongs to. -/
def Instr.tableIndex : Instr → Nat
  | .read _ => 0
  | .write _ _ => 1
  | .portinKbd _ _ => 2
  | .portinFloat _ _ => 3
  | .portout _ _ _ => 4
  | .keydown _ => 5
  | .keyup _ => 6
  | .quit => 7
  | .decode => 8
  | .rasterize => 9
  | .reset => 10
  | .frame => 11
  | .runcpu => 12
  | .drain => 13
  | .pace => 14

/-- The transaction word whose low `nbits` bits are those of `w`, the rest 0. -/
def tableWord (nbits w : Nat) : Word := BitVec.ofNat 32 (w % 2 ^ nbits)

/-- What the decoder reads from a table row's word (the host's interface). A word has one length, 32 bits (R98). -/
def decodeTableWord (nbits w : Nat) : Option Instr :=
  if nbits ≤ 32 then (decode (tableWord nbits w)).toOption else none

/-- The row-select byte with only bit `row` clear (R82). -/
def oneRowSelect (row : Row) : Byte := ~~~((1 : Byte) <<< row.val)

/-- The operations a pseudo-operation stands for (R100). -/
def Pseudo.expand : Pseudo → List Instr
  | .tap key => [.keydown key, .keyup key]
  | .scan row => [.portinKbd 0xFE (oneRowSelect row)]
  | .poke16 address value =>
    [.write address (value.extractLsb' 0 8), .write (address + 1) (value.extractLsb' 8 8)]

/-- A hexadecimal operand of the trace syntax, `digits` digits wide (R99). -/
def hexOperand (digits n : Nat) : String :=
  "0x" ++ String.ofList ((List.range digits).map fun i => (Nat.digitChar (n / 16 ^ (digits - 1 - i) % 16)).toUpper)

/-- A key in the trace syntax: `ERASE` for the erase key, its code for every other (R99; the spec names no other key). -/
def keyOperand (eraseKey key : KeyId) : String :=
  if key = eraseKey then "ERASE" else hexOperand 4 key.toNat

/-- The trace line of an operation, without its result (R99). -/
def traceLine (eraseKey : KeyId) : Instr → String
  | .read address => "READ " ++ hexOperand 4 address.toNat
  | .write address byte => "WRITE " ++ hexOperand 4 address.toNat ++ ", " ++ hexOperand 2 byte.toNat
  | .portinKbd port rowsel => "PORTIN " ++ hexOperand 2 port.toNat ++ ", " ++ hexOperand 2 rowsel.toNat
  | .portinFloat port rowsel => "PORTIN " ++ hexOperand 2 port.toNat ++ ", " ++ hexOperand 2 rowsel.toNat
  | .portout port byte _ => "PORTOUT " ++ hexOperand 2 port.toNat ++ ", " ++ hexOperand 2 byte.toNat
  | .keydown key => "KEYDOWN " ++ keyOperand eraseKey key
  | .keyup key => "KEYUP " ++ keyOperand eraseKey key
  | .quit => "QUIT"
  | .decode => "DECODE"
  | .rasterize => "RASTERIZE"
  | .reset => "RESET"
  | .frame => "FRAME"
  | .runcpu => "RUNCPU"
  | .drain => "DRAIN"
  | .pace => "PACE"

end Sys2Proof
end

