-- ==== Sys2Proof/Machine/Parties.lean ====
section
/-! DEFINITION. The external parties a session meets, as plain data (00_scope R10): the host's notifications, the CPU core
and the host clock. -/
namespace Sys2Proof.Machine

/-- A pending input notification (30_encoding R91). -/
inductive Notification where
  | keyDown (key : KeyId)
  | keyUp (key : KeyId)
  | quit
  /-- Anything else the backend delivers (44_frame_scheduler R200). -/
  | other
  deriving DecidableEq, Repr

/-- A bus operation the CPU core issues inside a step (44_frame_scheduler R193). -/
inductive BusOp where
  | read (address : Addr)
  | write (address : Addr) (byte : Byte)
  | portIn (port rowsel : Byte)
  | portOut (port byte : Byte)
  deriving DecidableEq, Repr

/-- What the CPU core does in one of its own states (R193, log 9): issue the bus operation `op`, if there is one, or end
the step, which adds `cycles` to CYC (R194). Its next state is the one `branches` lists for the byte the operation
returned, and `next` for a byte not listed or when nothing is returned. -/
structure CpuMove where
  op : Option BusOp
  cycles : Nat
  next : Nat
  branches : List (Byte × Nat)
  deriving DecidableEq, Repr

/-- The external CPU core (10_state R40, R41) as a finite automaton over the bytes returned to it, so that every operation
and every operand is decided from its own state and the results returned (44_frame_scheduler R193, log 9): its cycle
counter, its own state, its move in each state it lists, the cycles of a step in any other state (no bus operation), the
most operations it issues in one step, and the bytes the block has returned to it, newest first (log 10). -/
structure CpuCore where
  cyc : Nat
  state : Nat
  moves : List CpuMove
  idle : Nat
  opsPerStep : Nat
  results : List Byte
  deriving DecidableEq, Repr

/-- The host's wall clock as PACE uses it (10_state R43, 44_frame_scheduler R201), in milliseconds: NOW, T0, how long the
coming loop steps 1 to 3 take (an oracle; 0 past its end), and the sleeps asked of the host, newest first (log 19). -/
structure HostClock where
  now : Nat
  t0 : Nat
  durations : List Nat
  sleeps : List Nat
  deriving DecidableEq, Repr

end Sys2Proof.Machine
end

