-- ==== Sys2Proof/Machine/Launch.lean ====
section
/-! DEFINITION. What a session starts with (70_reset_and_hazards R250, R258, R259): configuration, ROM image, RAM_INIT, the
two host outcomes, and the external parties; the constraints on them (00_scope R8, 10_state R22); the reset contents of memory they give (10_state R21); and
the standard parameter set. -/
namespace Sys2Proof.Machine

/-- What one session starts with: the inputs of its RESET (R250), the queue of notifications the host has pending (10_state
R39, a launch parameter), and the CPU core and the host clock it meets (R258, R259), so that nothing of the session before
survives (10_state R46; log 17). `ramInit` is the draw RAM_INIT as a list, 0 past its end: any map from the addresses to
bytes is such a list (log 8). -/
structure Launch where
  cfg : Config
  rom : List Byte
  ramInit : List Byte
  surfaceOk : Bool
  atlasOk : Bool
  pending : List Notification
  cpu : CpuCore
  clock : HostClock
  deriving DecidableEq, Repr

/-- The constraints of 00_scope R8 (a) to (e) and (h), and the ranges R7 gives N_CHARS and EXIT_FAIL; (f) holds by
`KeyEntry`'s types, (g) constrains nothing. -/
def legalConfig (c : Config) : Bool :=
  c.romSize ≤ Config.protBoundary && c.mirrorOffset + c.romSize ≤ Config.protBoundary &&
  c.romSize ≤ c.mirrorOffset &&
  c.charTableOffset + Config.glyphPx * c.nChars ≤ c.romSize &&
  c.nChars ≤ c.invOffset && c.invOffset + c.nChars ≤ Config.nTiles &&
  c.ink != c.paper &&
  1 ≤ c.frameBudget &&
  1 ≤ c.nChars && c.nChars ≤ 128 &&
  c.exitFail != 0

/-- The ROM image has exactly ROM_SIZE bytes (10_state R22). -/
def legalRom (l : Launch) : Bool := l.rom.length == l.cfg.romSize

/-- The launch is one RESET accepts: a legal configuration and a ROM image of the right length (R8, R22). -/
def legalLaunch (l : Launch) : Bool := legalConfig l.cfg && legalRom l

/-- `ROM[i]`; 0 outside the image, which no legal launch reads (log 31). -/
def romByte (l : Launch) (i : Nat) : Byte := l.rom.getD i 0

/-- `RAM_INIT(a)` (00_scope R7). -/
def ramInitByte (l : Launch) (a : Nat) : Byte := l.ramInit.getD a 0

/-- The reset contents of `MEM[a]`: the ROM image at 0 and at MIRROR_OFFSET, RAM_INIT elsewhere (10_state R21). It is what
an address that memory does not list reads as. -/
def resetByte (l : Launch) (a : Nat) : Byte :=
  if a < l.cfg.romSize then romByte l a
  else if l.cfg.mirrorOffset ≤ a ∧ a < l.cfg.mirrorOffset + l.cfg.romSize then romByte l (a - l.cfg.mirrorOffset)
  else ramInitByte l a

/-- The five entries of one row of the default key table, columns 0 to 4. -/
def keyRow (row : Row) (k0 k1 k2 k3 k4 : KeyId) : List KeyEntry :=
  [⟨k0, row, 0⟩, ⟨k1, row, 1⟩, ⟨k2, row, 2⟩, ⟨k3, row, 3⟩, ⟨k4, row, 4⟩]

/-- The default KEYTABLE (93_implementation_defined G6; PRESUMED, the family's). The key codes are those of
95_test_vectors where it gives them and ASCII elsewhere (log 6). -/
def standardKeyTable : List KeyEntry :=
  keyRow 0 0x10 0x5A 0x58 0x43 0x56 ++ keyRow 1 0x41 0x53 0x44 0x46 0x47 ++
  keyRow 2 0x51 0x57 0x45 0x52 0x54 ++ keyRow 3 0x31 0x32 0x33 0x34 0x35 ++
  keyRow 4 0x30 0x39 0x38 0x37 0x36 ++ keyRow 5 0x50 0x4F 0x49 0x55 0x59 ++
  keyRow 6 0x0D 0x4C 0x4B 0x4A 0x48 ++ keyRow 7 0x20 0x2E 0x4D 0x4E 0x42

/-- The parameters of R6 and the defaults of R7 (PRESUMED where the spec takes them from the family, log 5). -/
def standardConfig : Config where
  romSize := 0x2000
  mirrorOffset := 0x2000
  dfilePtrAddr := 0x400C
  charTableOffset := 0x1E00
  nChars := 64
  invOffset := 128
  ink := ⟨0⟩
  paper := ⟨1⟩
  atlasFill := ⟨1⟩
  glyphMsbLeft := true
  frameBudget := 65000
  keyTable := standardKeyTable
  eraseKey := 0x0008
  exitFail := 1

/-- The launch of `State.reset`: the standard parameters, a ROM of zero bytes (log 7), RAM_INIT zero (log 8), a host
that can create the surface and build the atlas, no notification pending (log 12), a CPU core that counts 1000 cycles a
step and issues nothing (log 11), and a clock at 0 (log 19). -/
def standardLaunch : Launch where
  cfg := standardConfig
  rom := List.replicate standardConfig.romSize 0
  ramInit := []
  surfaceOk := true
  atlasOk := true
  pending := []
  cpu := { cyc := 0, state := 0, moves := [], idle := 1000, opsPerStep := 0, results := [] }
  clock := { now := 0, t0 := 0, durations := [], sleeps := [] }

end Sys2Proof.Machine
end

