-- ==== Sys2Proof/Machine/Raster.lean ====
section
/-! DEFINITION. The pixels RASTERIZE paints (43_font_rasterizer R170 to R175): a function of the launch alone (R176). -/
namespace Sys2Proof.Machine

/-- Row `y` of the bitmap of character code `k` (R172). -/
def glyphByte (l : Launch) (k y : Nat) : Byte := romByte l (l.cfg.charTableOffset + Config.glyphPx * k + y)

/-- The bit of a row byte that is column `x`: bit `7 - x` (GLYPH_PX - 1 - x), or bit `x` when GLYPH_MSB_LEFT is false (R173). -/
def glyphBit (c : Config) (s : Byte) (x : Nat) : Bool := s.getLsbD (if c.glyphMsbLeft then Config.glyphPx - 1 - x else x)

/-- The tile of code `k` painted with `set` where the source bit is 1 and `clear` where it is 0; each source bit is a
SCALE by SCALE block (R170, R175). -/
def glyphTile (l : Launch) (k : Nat) (set clear : Colour) : Tile :=
  tabulate Config.cellPx fun y => tabulate Config.cellPx fun x =>
    if glyphBit l.cfg (glyphByte l k (y / Config.scale)) (x / Config.scale) then set else clear

/-- The tile of one colour (R174). -/
def uniformTile (c : Colour) : Tile := tabulate Config.cellPx fun _ => tabulate Config.cellPx fun _ => c

/-- Paint code `k` into its normal tile and its inverse tile (R170, R171). -/
def paintCode (l : Launch) (atlas : Atlas) (k : Nat) : Atlas :=
  (atlas.setIfInBounds k (glyphTile l k l.cfg.ink l.cfg.paper)).setIfInBounds (k + l.cfg.invOffset)
    (glyphTile l k l.cfg.paper l.cfg.ink)

/-- The atlas RASTERIZE builds: every tile filled with ATLAS_FILL, then codes 0 to N_CHARS - 1 painted (R170, R174). -/
def rasterisedAtlas (l : Launch) : Atlas :=
  (List.range l.cfg.nChars).foldl (paintCode l) (tabulate Config.nTiles fun _ => uniformTile l.cfg.atlasFill)

end Sys2Proof.Machine
end

