-- ==== Sys2Proof/Machine/State.lean ====
section
/-! DEFINITION. The state of one session (00_scope R11, 10_state R20 to R46), why a step can stop, and the state after
reset (10_state R45). INVENTORY.md lists every field with its rule. -/
namespace Sys2Proof.Machine

/-- The sequencer's control state (10_state R36). -/
inductive Phase where
  /-- Before reset completes. -/
  | init
  /-- Loop step 1 is next. -/
  | runcpu
  /-- Loop step 2 is next. -/
  | drain
  /-- Loop step 3 is next. -/
  | decode
  /-- Loop step 4 is next. -/
  | pace
  /-- After an observed termination request. -/
  | halted
  /-- After a fatal initialisation failure. -/
  | failed
  deriving DecidableEq, Repr

/-- The two fatal initialisation failures (60_exceptions R221). -/
inductive FatalInit where
  /-- "presentation surface cannot be created". -/
  | surface
  /-- "font atlas build fails". -/
  | atlas
  deriving DecidableEq, Repr

/-- Everything the spec gives one session (10_state R45), and the model's own fields `transport`, `arrivals`, `launches`
and `draws` (INVENTORY.md, "## State"). -/
structure State where
  /-- MEM: the bytes that differ from the reset contents, addresses rising (R20). -/
  mem : List Host.Cell
  /-- KBD (R23). -/
  kbd : Matrix
  /-- ATLAS (R29). -/
  atlas : Atlas
  /-- FB; none until the first DECODE completes (R31, R32). -/
  fb : Option Frame
  /-- The termination flag (R35). -/
  quit : Bool
  /-- The sequencer's control state (R36). -/
  phase : Phase
  /-- EVQ, oldest first (R39). -/
  evq : List Notification
  /-- CYC and CPU (R40, R41). -/
  cpu : CpuCore
  /-- NOW and T0 (R43). -/
  clock : HostClock
  /-- What this session began with: its configuration and the other inputs of its RESET (R22, R34, 70 R250; log 17). -/
  launch : Launch
  /-- The exit status reported on a fatal failure (60_exceptions R221). -/
  exitStatus : Option Int
  /-- The failure whose diagnostic was reported (R221). -/
  failure : Option FatalInit
  /-- The transaction words presented and not yet performed, oldest first (log 1). -/
  transport : List Word
  /-- What the host will append to EVQ: one batch before each step (log 12). -/
  arrivals : List (List Notification)
  /-- The inputs of the sessions later RESETs begin (log 17). -/
  launches : List Launch
  /-- How many free values have been drawn (log 15). -/
  draws : Nat
  deriving DecidableEq, Repr

/-- Why the machine stops. -/
inductive Fault where
  /-- Raised by the fetch in phase HALTED: the run has ended and no operation is enabled (44_frame_scheduler R204, R206).
  Safe: the block performs no further operation. -/
  | halted
  /-- Raised by the fetch in phase FAILED: a fatal initialisation failure ended the run (60_exceptions R222; R221 names the
  cause, `none` in a state no run reaches). Safe: the block performs no further operation. -/
  | fatalInit (cause : Option FatalInit)
  /-- Raised by RUNCPU and FRAME when the CPU core stops raising CYC before the budget is reached: the block is stuck in
  RUNCPU for ever (44_frame_scheduler R195). Safe: nothing happens after it. -/
  | cpuNotCounting
  deriving DecidableEq, Repr

/-- Why an operation is given no meaning. -/
inductive Refusal where
  /-- Raised by an arm of `exec` whose operation has no meaning yet. Safe. -/
  | notModelled (mnemonic : String)
  /-- Raised by the fetch: the transaction word spells no operation (30_encoding R95). Safe. -/
  | undecodable (reason : DecodeError)
  /-- Raised by the fetch: the operation is not enabled in this phase (30_encoding R96, 44_frame_scheduler R191). Safe. -/
  | notEnabled (phase : Phase)
  /-- Raised by RESET and RASTERIZE: the configuration breaks a constraint of 00_scope R8. Safe. -/
  | illegalConfig
  /-- Raised by RESET and RASTERIZE: the ROM image has not exactly ROM_SIZE bytes (10_state R22). Safe. -/
  | illegalRom
  deriving DecidableEq, Repr

/-- The state after a successful RESET with the standard launch (10_state R45). What the spec leaves to the external
parties is named in logs 5 to 8, 11, 12, 17 and 19. -/
def State.reset : State where
  mem := []
  kbd := Vector.replicate Config.kbdSlots Config.releasedRow
  atlas := rasterisedAtlas standardLaunch
  fb := none
  quit := false
  phase := .runcpu
  evq := standardLaunch.pending
  cpu := standardLaunch.cpu
  clock := standardLaunch.clock
  launch := standardLaunch
  exitStatus := none
  failure := none
  transport := []
  arrivals := []
  launches := []
  draws := 0

end Sys2Proof.Machine
end

