-- ==== Sys2Proof/Machine/Flags.lean ====
section
/-! DEFINITION. The block's one flag, `quit` (10_state R35), and the one test of it (44_frame_scheduler R203). No
operation computes a carry, overflow, zero or sign flag (45_arithmetic_access_system R210). -/
namespace Sys2Proof.Machine

/-- `quit <- 1` (44_frame_scheduler R199). -/
def State.setQuit (s : State) : State := { s with quit := true }

/-- The phase after PACE: HALTED if a termination request was drained, else RUNCPU (R203). -/
def phaseAfterPace (quit : Bool) : Phase := if quit then .halted else .runcpu

end Sys2Proof.Machine
end

