-- ==== Sys2Proof/Machine/Operands.lean ====
section
/-! DEFINITION. Every operand form and index the block computes (30_encoding R81 to R91, 45_arithmetic_access_system R211
to R216): port decode, row select, the bits a key drives, the pointer, the cell address, the atlas index. -/
namespace Sys2Proof.Machine

/-- The port selects the keyboard: its bit 0 is 0; bits 7 to 1 are not decoded (R81, 20_memory R61). -/
def keyboardPort (port : Byte) : Bool := evenPort port

/-- The matrix rows in scan order, bit 0 first (R83). -/
def scanOrder : List Row := List.finRange Config.kbdRows

/-- The selected row: the lowest clear bit of `rowsel`, none for 0xFF (40_bus_adapter R115). -/
def selrow (rowsel : Byte) : Option Row := scanOrder.find? fun p => !rowsel.getLsbD p.val

/-- The matrix row a key's table entry names, with its column; `none` is the default entry (10_state R28). -/
def keyTableEntry (c : Config) (key : KeyId) : Option (Row × Col) :=
  (c.keyTable.find? fun e => e.key == key).map fun e => (e.row, e.col)

/-- The matrix bits a key drives: the two of the erase alias, tested first and without the table, or the one of its
table entry, or none (10_state R27, 41_keyboard_matrix R131 to R133). -/
def drivenBits (c : Config) (key : KeyId) : List (Row × Col) :=
  if key = c.eraseKey then [Config.eraseBitA, Config.eraseBitB] else (keyTableEntry c key).toList

/-- The mask `1 << col` of a column (45 R214). -/
def columnMask (col : Col) : Byte := (1 : Byte) <<< col.val

/-- The pointer from its two bytes, low byte first: `lo + 256 * hi` (45 R212). -/
def joinBytes (lo hi : Byte) : Addr := hi ++ lo

/-- The address of cell `(r, c)` in closed form, `(D + 1 + LINE_STRIDE*r + c) mod 65536` (42_display_decoder R152). -/
def cellAddr (d : Addr) (r c : Nat) : Addr := d + BitVec.ofNat 16 (1 + Config.lineStride * r + c)

/-- `ATLAS[t][y][x]`, `y` and `x` taken modulo the tile's size (10_state R29). -/
def tilePixel (atlas : Atlas) (t : Byte) (y x : Nat) : Colour :=
  ((atlas[t.toNat]'t.isLt)[y % Config.cellPx]'(Nat.mod_lt _ (by decide)))[x % Config.cellPx]'(Nat.mod_lt _ (by decide))

end Sys2Proof.Machine
end

