-- ==== Sys2Proof/Machine/Ops.lean ====
section
/-! DEFINITION. The named operations over the state that the meanings share: memory in its canonical form, the matrix, the
CPU core's interface, the framebuffer walk, the host clock, the event queue, and taking a fatal initialisation failure
(60_exceptions R222), which nothing returns from (R227). -/
namespace Sys2Proof.Machine

/-! ### Memory -/

/-- The byte listed at an address, if one is. -/
def cellAt : List Host.Cell → Nat → Option Byte
  | [], _ => none
  | (b, v) :: rest, a => if b = a then some v else cellAt rest a

/-- List `v` at `a`, keeping the addresses rising. -/
def insertCell (a : Nat) (v : Byte) : List Host.Cell → List Host.Cell
  | [] => [(a, v)]
  | (b, w) :: rest =>
    if a < b then (a, v) :: (b, w) :: rest
    else if a = b then (a, v) :: rest
    else (b, w) :: insertCell a v rest

/-- List nothing at `a`. -/
def removeCell (a : Nat) (m : List Host.Cell) : List Host.Cell := m.filter fun c => c.1 != a

/-- The byte at `a`: the listed one, or the reset contents (10_state R21). -/
def memRead (l : Launch) (m : List Host.Cell) (a : Nat) : Byte := (cellAt m a).getD (resetByte l a)

/-- The raw store `MEM[a] <- v` (00_scope R13), keeping the canonical form. -/
def memWrite (l : Launch) (m : List Host.Cell) (a : Nat) (v : Byte) : List Host.Cell :=
  if v = resetByte l a then removeCell a m else insertCell a v m

/-- The addresses rise strictly. -/
def risingCells : List Host.Cell → Bool
  | [] => true
  | [_] => true
  | c :: d :: rest => c.1 < d.1 && risingCells (d :: rest)

/-- The canonical form: addresses rise strictly, lie in the address space, and no listed byte is the one an unlisted
address reads as. -/
def Memory.wf (l : Launch) (m : List Host.Cell) : Bool :=
  risingCells m && m.all fun c => c.1 < 2 ^ addrBits && c.2 != resetByte l c.1

/-- `MemRead(a, 1)`: no side effect (00_scope R13, 20_memory R57). -/
def State.readByte (s : State) (a : Addr) : Byte := memRead s.launch s.mem a.toNat

/-- `MemWrite(a, 1, v)`, the raw store. -/
def State.storeByte (s : State) (a : Addr) (v : Byte) : State := { s with mem := memWrite s.launch s.mem a.toNat v }

/-- `BusWrite(a, v)`: discarded below PROT_BOUNDARY, else stored (40_bus_adapter R112, 20_memory R59). -/
def State.busWrite (s : State) (a : Addr) (v : Byte) : State :=
  if a.toNat < Config.protBoundary then s else s.storeByte a v

/-- `MemRead(DFILE_PTR_ADDR, 2)`: the display-file pointer, its second byte's address modulo 65536
(42_display_decoder R151). -/
def State.readPointer (s : State) : Addr :=
  joinBytes (s.readByte s.launch.cfg.dfilePtrAddr) (s.readByte (s.launch.cfg.dfilePtrAddr + 1))

/-! ### Keyboard matrix -/

/-- `KBD[row]` of a hardware row (10_state R23). -/
def matrixRow (k : Matrix) (row : Row) : Byte := k[row.val]'(Nat.lt_of_lt_of_le row.isLt (by decide))

/-- Clear one matrix bit: `KBD[row] <- KBD[row] & ~(1 << col)` (41_keyboard_matrix R131). -/
def pressBit (k : Matrix) (bit : Row × Col) : Matrix :=
  k.set bit.1.val (matrixRow k bit.1 &&& ~~~columnMask bit.2) (Nat.lt_of_lt_of_le bit.1.isLt (by decide))

/-- Set one matrix bit: `KBD[row] <- KBD[row] | (1 << col)` (41_keyboard_matrix R134). -/
def releaseBit (k : Matrix) (bit : Row × Col) : Matrix :=
  k.set bit.1.val (matrixRow k bit.1 ||| columnMask bit.2) (Nat.lt_of_lt_of_le bit.1.isLt (by decide))

/-- Clear every bit the key drives, in one step (R131, R132). -/
def State.pressKey (s : State) (key : KeyId) : State :=
  { s with kbd := (drivenBits s.launch.cfg key).foldl pressBit s.kbd }

/-- Set every bit the key drives, in one step (R134, R135). -/
def State.releaseKey (s : State) (key : KeyId) : State :=
  { s with kbd := (drivenBits s.launch.cfg key).foldl releaseBit s.kbd }

/-! ### The CPU core's interface -/

/-- The byte of a keyboard read: the lowest selected row, or all ones (40_bus_adapter R114). -/
def rowScan (k : Matrix) (rowsel : Byte) : Byte :=
  match selrow rowsel with
  | some p => matrixRow k p
  | none => Config.floatByte

/-- Return a byte to the CPU core, the result of a READ or PORTIN (44_frame_scheduler R193). -/
def State.returnByte (s : State) (b : Byte) : State := { s with cpu := { s.cpu with results := b :: s.cpu.results } }

/-- `READ` (40_bus_adapter R111). -/
def State.busRead (s : State) (a : Addr) : State := s.returnByte (s.readByte a)

/-- `PORTIN` on an even port (R114). -/
def State.keyboardRead (s : State) (rowsel : Byte) : State := s.returnByte (rowScan s.kbd rowsel)

/-- `PORTIN` on an odd port (R116). -/
def State.floatRead (s : State) : State := s.returnByte Config.floatByte

/-- A bus operation issued by the CPU core; a PORTIN's port bit is tested before its row select (60_exceptions R226 (d)),
and a PORTOUT does nothing (40_bus_adapter R117). -/
def State.busOp (s : State) : BusOp → State
  | .read a => s.busRead a
  | .write a v => s.busWrite a v
  | .portIn port rowsel => if keyboardPort port then s.keyboardRead rowsel else s.floatRead
  | .portOut _ _ => s

/-- A READ or a PORTIN returns a byte, a WRITE or a PORTOUT none (44_frame_scheduler R193). -/
def BusOp.returns : BusOp → Bool
  | .read _ => true
  | .write _ _ => false
  | .portIn _ _ => true
  | .portOut _ _ => false

/-- What the CPU core does in its present state (log 9). -/
def CpuCore.move (c : CpuCore) : CpuMove :=
  c.moves.getD c.state { op := none, cycles := c.idle, next := c.state, branches := [] }

/-- The state after a move, given the byte its operation returned, if any. -/
def CpuMove.after (m : CpuMove) (returned : Option Byte) : Nat :=
  (returned.bind fun b => (m.branches.find? fun e => e.1 == b).map Prod.snd).getD m.next

/-- Issue a bus operation; its result is the CPU core's before the next is issued (R193). -/
def State.issue (s : State) (o : BusOp) : State :=
  let t := s.busOp o
  let returned := if o.returns then t.cpu.results.head? else none
  { t with cpu := { t.cpu with state := s.cpu.move.after returned } }

/-- The end of a step: its cycles are added to CYC (R194). -/
def State.endStep (s : State) : State :=
  { s with cpu := { s.cpu with cyc := s.cpu.cyc + s.cpu.move.cycles, state := s.cpu.move.next } }

/-- A step that issues at most `n` more bus operations, one after another, each decided from the results of those before
(R193). -/
def State.stepWithin : Nat → State → State
  | 0, s => s.endStep
  | n + 1, s =>
    match s.cpu.move.op with
    | none => s.endStep
    | some o => State.stepWithin n (s.issue o)

/-- `CpuStep()`, "step one instruction" (R193, R194). -/
def State.cpuStep (s : State) : State := s.stepWithin s.cpu.opsPerStep

/-- The loop `while CYC - c0 < FRAME_BUDGET: CpuStep()`, for at most `fuel` steps (44_frame_scheduler R192). -/
def State.cpuLoop (c0 : Nat) : Nat → State → State
  | 0, s => s
  | fuel + 1, s => if s.cpu.cyc - c0 < s.launch.cfg.frameBudget then State.cpuLoop c0 fuel s.cpuStep else s

/-- Every step raises CYC (44_frame_scheduler R195). -/
def CpuCore.alwaysCounts (c : CpuCore) : Bool := 1 ≤ c.idle && c.moves.all fun m => 1 ≤ m.cycles

/-- No step raises CYC. -/
def CpuCore.neverCounts (c : CpuCore) : Bool := c.idle == 0 && c.moves.all fun m => m.cycles == 0

/-- How many different contents memory can have. -/
@[irreducible] def memoryContents : Nat := 256 ^ 2 ^ addrBits

/-- So many steps of the loop decide whether it ends: each raises CYC; or none does; or, once as many steps have left CYC
alone as there are pairs of a CPU core's state and a memory, one has come again, and CYC is left alone for ever. -/
def State.cpuFuel (s : State) : Nat :=
  if s.cpu.alwaysCounts then s.launch.cfg.frameBudget
  else if s.cpu.neverCounts then 0
  else s.launch.cfg.frameBudget * ((s.cpu.moves.length + 1) * memoryContents)

/-- The CPU core raises CYC by the frame budget in finitely many steps (44_frame_scheduler R195). -/
def State.cpuProgress (s : State) : Bool :=
  s.cpu.alwaysCounts ||
    s.launch.cfg.frameBudget ≤ (State.cpuLoop s.cpu.cyc s.cpuFuel s).cpu.cyc - s.cpu.cyc

/-! ### Host clock -/

/-- `T0 <- NOW` (44_frame_scheduler R190). -/
def State.startTimer (s : State) : State := { s with clock := { s.clock with t0 := s.clock.now } }

/-- One of the loop steps 1 to 3 has taken its time (log 19). -/
def State.spendTime (s : State) : State :=
  { s with clock := { s.clock with now := s.clock.now + s.clock.durations.headD 0, durations := s.clock.durations.tail } }

/-- Sleep for exactly the remainder of the frame period, if any is left (44_frame_scheduler R201, 90_conflicts C4). -/
def State.sleepRemainder (s : State) : State :=
  let elapsed := s.clock.now - s.clock.t0
  if elapsed < Config.framePeriod then
    { s with clock := { s.clock with
        now := s.clock.now + (Config.framePeriod - elapsed)
        sleeps := (Config.framePeriod - elapsed) :: s.clock.sleeps } }
  else s

/-! ### Display -/

/-- Read `n` cells from the cursor on, and the cursor after them (42_display_decoder R150). -/
def walkColumns (s : State) : Nat → Addr → List Byte × Addr
  | 0, cur => ([], cur)
  | n + 1, cur => (s.readByte cur :: (walkColumns s n (cur + 1)).1, (walkColumns s n (cur + 1)).2)

/-- Read `n` rows of cells, skipping the assumed end-of-line byte after each: rows are LINE_STRIDE bytes apart (R150). -/
def walkRows (s : State) : Nat → Addr → List (List Byte)
  | 0, _ => []
  | n + 1, cur =>
    (walkColumns s Config.dispCols cur).1 :: walkRows s n ((walkColumns s Config.dispCols cur).2 + BitVec.ofNat addrBits (Config.lineStride - Config.dispCols))

/-- The display bytes of the DISP_ROWS rows of DISP_COLS cells, the walk starting one byte past the pointer (R150). -/
def displayCells (s : State) : List (List Byte) := walkRows s Config.dispRows (s.readPointer + 1)

/-- The display byte of cell `(r, c)`. -/
def displayByte (cells : List (List Byte)) (r c : Nat) : Byte := (cells.getD r []).getD c 0

/-- The whole frame: pixel `(y, x)` is pixel `(y mod 16, x mod 16)` of the tile its cell's byte selects (R153). -/
def displayFrame (s : State) : Frame :=
  let cells := displayCells s
  tabulate Config.fbH fun y => tabulate Config.fbW fun x =>
    tilePixel s.atlas (displayByte cells (y / Config.cellPx) (x / Config.cellPx)) (y % Config.cellPx) (x % Config.cellPx)

/-! ### Events -/

/-- What DRAIN does with one notification (44_frame_scheduler R197 to R200). -/
def State.notify (s : State) : Notification → State
  | .keyDown k => s.pressKey k
  | .keyUp k => s.releaseKey k
  | .quit => s.setQuit
  | .other => s

/-- The host's appends since the last step land at the tail of EVQ (10_state R39, log 12). -/
def State.deliver (s : State) : State :=
  { s with evq := s.evq ++ s.arrivals.headD [], arrivals := s.arrivals.tail }

/-! ### Sessions and the fatal failures -/

/-- The bytes memory holds after the `n`-th failed reset, in canonical form: free values (60_exceptions R222). -/
@[irreducible] def undefinedMemory (l : Launch) (n : Nat) : List Host.Cell :=
  ((List.range (2 ^ addrBits)).map fun a => (a, Config.undefinedByte n a)).filter fun c => c.2 != resetByte l c.1

/-- `raise FatalInit(cause)`: the cause and EXIT_FAIL are reported, `phase <- FAILED`, nothing is saved, and MEM, KBD,
ATLAS and FB are of no account (60_exceptions R221, R222). The spec defines no state then (10_state R45): that `quit`, EVQ,
the CPU core, the clock and the launch stay as the failing operation left them is the model's choice (log 15, DESIGN
CHOICE). -/
def State.raiseFatalInit (s : State) (cause : FatalInit) : State :=
  { s with
    phase := .failed
    exitStatus := some s.launch.cfg.exitFail
    failure := some cause
    mem := undefinedMemory s.launch s.draws
    kbd := Config.undefinedMatrix s.draws
    atlas := Config.undefinedAtlas s.draws
    fb := none
    draws := s.draws + 1 }

/-- The start of a session: its launch, memory with the reset contents, no key held, no termination request, a
framebuffer without value, phase INIT (70_reset_and_hazards R250 to R254), and the external parties as it finds them (R258,
R259). Nothing of the session before is left (10_state R46, 60_exceptions R227; log 17). -/
def State.beginSession (s : State) : State :=
  { s with
    launch := s.launches.headD s.launch
    launches := s.launches.tail
    evq := (s.launches.headD s.launch).pending
    cpu := (s.launches.headD s.launch).cpu
    clock := (s.launches.headD s.launch).clock
    mem := []
    kbd := Vector.replicate Config.kbdSlots Config.releasedRow
    fb := none
    quit := false
    phase := .init
    exitStatus := none
    failure := none }

/-- Build the atlas, or fail if the host says it cannot be built (43_font_rasterizer R170, R177). -/
def State.buildAtlas (s : State) : State :=
  if s.launch.atlasOk then { s with atlas := rasterisedAtlas s.launch } else s.raiseFatalInit .atlas

/-- `s`, unless the launch is one the spec refuses (00_scope R8, 10_state R22). -/
def ifLegalLaunch (l : Launch) (s : State) : Host.Outcome State Fault Refusal :=
  if !legalConfig l.cfg then .refused .illegalConfig
  else if !legalRom l then .refused .illegalRom
  else .next s

end Sys2Proof.Machine
end

