-- ==== Sys2Proof/Machine/Bus.lean ====
section
/-! DEFINITION. The bus adapter operations READ, WRITE, PORTIN and PORTOUT (40_bus_adapter). None can fault (R110). -/
namespace Sys2Proof.Machine

/-- `READ address -> byte` (R111). -/
def execRead (address : Addr) (s : State) : Host.Outcome State Fault Refusal := .next (s.busRead address)

/-- `WRITE address, byte` (R112). -/
def execWrite (address : Addr) (byte : Byte) (s : State) : Host.Outcome State Fault Refusal :=
  .next (s.busWrite address byte)

/-- `PORTIN port, rowsel -> byte` on an even port: the row scan; the port's other bits do not matter (R114). -/
def execPortinKbd (_port rowsel : Byte) (s : State) : Host.Outcome State Fault Refusal :=
  .next (s.keyboardRead rowsel)

/-- `PORTIN port, rowsel -> byte` on an odd port: all ones whatever the operands (R116). -/
def execPortinFloat (_port _rowsel : Byte) (s : State) : Host.Outcome State Fault Refusal := .next s.floatRead

/-- `PORTOUT port, byte`: nothing (R117). -/
def execPortout (_port _byte _hi : Byte) (s : State) : Host.Outcome State Fault Refusal := .next s

end Sys2Proof.Machine
end

