-- ==== Sys2Proof/Machine/Font.lean ====
section
/-! DEFINITION. The glyph ROM rasteriser's operation RASTERIZE (43_font_rasterizer); the pixels are in Raster.lean. -/
namespace Sys2Proof.Machine

/-- `RASTERIZE` (R170, R177). -/
def execRasterize (s : State) : Host.Outcome State Fault Refusal := ifLegalLaunch s.launch s.buildAtlas

end Sys2Proof.Machine
end

