-- ==== Sys2Proof/Machine/Keyboard.lean ====
section
/-! DEFINITION. The keyboard matrix operations KEYDOWN and KEYUP (41_keyboard_matrix): bitwise clear and set, no count
(R130). -/
namespace Sys2Proof.Machine

/-- `KEYDOWN key` (R131 to R133). -/
def execKeydown (key : KeyId) (s : State) : Host.Outcome State Fault Refusal := .next (s.pressKey key)

/-- `KEYUP key` (R134 to R136). -/
def execKeyup (key : KeyId) (s : State) : Host.Outcome State Fault Refusal := .next (s.releaseKey key)

end Sys2Proof.Machine
end

