-- ==== Sys2Proof/Machine/Reset.lean ====
section
/-! DEFINITION. RESET, the startup initialisation (70_reset_and_hazards R250 to R257). -/
namespace Sys2Proof.Machine

/-- The end of RESET: the loop begins unless a failure was raised (R257). -/
def State.enterLoop (s : State) : State := if s.phase = .failed then s else { s with phase := .runcpu }

/-- The two steps of RESET the host can make fail, the surface first (R254, R255, 60_exceptions R226 (a)). -/
def State.initialise (s : State) : State :=
  if s.launch.surfaceOk then s.buildAtlas.enterLoop else s.raiseFatalInit .surface

/-- `RESET` (R250). -/
def execReset (s : State) : Host.Outcome State Fault Refusal :=
  ifLegalLaunch s.beginSession.launch s.beginSession.initialise

end Sys2Proof.Machine
end

