-- ==== Sys2Proof/Machine/Display.lean ====
section
/-! DEFINITION. The display character decoder's operation DECODE (42_display_decoder). -/
namespace Sys2Proof.Machine

/-- The pass itself: every pixel of FB, nothing else (R150, R155). -/
def State.redraw (s : State) : State := { s with fb := some (displayFrame s) }

/-- The pass as loop step 3: when it is the step the sequencer is at, its time is spent and PACE is next; used as a pure
function in another phase it leaves `phase` alone (44_frame_scheduler R191, 30_encoding R96; log 18). -/
def State.displayPass (s : State) : State :=
  if s.phase = .decode then { s.redraw.spendTime with phase := .pace } else s.redraw

/-- `DECODE` (R150). It cannot fail (R156). -/
def execDecode (s : State) : Host.Outcome State Fault Refusal := .next s.displayPass

end Sys2Proof.Machine
end

