-- ==== Sys2Proof/Machine/Scheduler.lean ====
section
/-! DEFINITION. The frame scheduler's operations FRAME, RUNCPU, DRAIN, QUIT and PACE (44_frame_scheduler). -/
namespace Sys2Proof.Machine

/-- Loop step 1 of a CPU core that makes progress: the iteration's timer starts, the CPU core is stepped until its counter
has risen by the budget, DRAIN is next (R190, R192). `c0` is the counter on entry. -/
def State.cpuPhase (s : State) : State :=
  { (s.startTimer.cpuLoop s.cpu.cyc s.cpuFuel).spendTime with phase := .drain }

/-- Loop step 1, stuck for ever when the CPU core stops counting (R195). -/
def State.runCpu (s : State) : Host.Outcome State Fault Refusal :=
  if s.cpuProgress then .next s.cpuPhase else .fault .cpuNotCounting

/-- Loop step 2: the pending notifications in arrival order, to the end of the queue, then DECODE is next (R197). -/
def State.drainQueue (s : State) : State :=
  { (s.evq.foldl State.notify s).spendTime with evq := [], phase := .decode }

/-- Loop step 4: pace to the frame period, then the end-of-frame test (R201, R203). -/
def State.paceFrame (s : State) : State := { s.sleepRemainder with phase := phaseAfterPace s.quit }

/-- `RUNCPU` (R192). -/
def execRuncpu (s : State) : Host.Outcome State Fault Refusal := s.runCpu

/-- `DRAIN` (R197). -/
def execDrain (s : State) : Host.Outcome State Fault Refusal := .next s.drainQueue

/-- `QUIT` (R199). -/
def execQuit (s : State) : Host.Outcome State Fault Refusal := .next s.setQuit

/-- `PACE` (R201). -/
def execPace (s : State) : Host.Outcome State Fault Refusal := .next s.paceFrame

/-- `FRAME`: RUNCPU; DRAIN; DECODE; PACE (R190). -/
def execFrame (s : State) : Host.Outcome State Fault Refusal :=
  match s.runCpu with
  | .next t => .next t.drainQueue.displayPass.paceFrame
  | .fault r => .fault r
  | .refused r => .refused r

end Sys2Proof.Machine
end

