-- ==== Sys2Proof/Machine/Dispatch.lean ====
section
/-! DEFINITION. The meaning of each operation, one arm per constructor of Instr. -/
namespace Sys2Proof.Machine

def exec (i : Instr) (s : State) : Host.Outcome State Fault Refusal :=
  match i with
  | .read address => Sys2Proof.Machine.execRead address s
  | .write address byte => Sys2Proof.Machine.execWrite address byte s
  | .portinKbd port rowsel => Sys2Proof.Machine.execPortinKbd port rowsel s
  | .portinFloat port rowsel => Sys2Proof.Machine.execPortinFloat port rowsel s
  | .portout port byte hi => Sys2Proof.Machine.execPortout port byte hi s
  | .keydown key => Sys2Proof.Machine.execKeydown key s
  | .keyup key => Sys2Proof.Machine.execKeyup key s
  | .quit => Sys2Proof.Machine.execQuit s
  | .decode => Sys2Proof.Machine.execDecode s
  | .rasterize => Sys2Proof.Machine.execRasterize s
  | .reset => Sys2Proof.Machine.execReset s
  | .frame => Sys2Proof.Machine.execFrame s
  | .runcpu => Sys2Proof.Machine.execRuncpu s
  | .drain => Sys2Proof.Machine.execDrain s
  | .pace => Sys2Proof.Machine.execPace s

end Sys2Proof.Machine
end

