-- ==== Sys2Proof/Machine/Fetch.lean ====
section
/-! DEFINITION. Which operation the machine performs next: the next transaction word presented to it, or, when none is, the
operation of the sequencer's phase (10_state R36); and when an operation is enabled (30_encoding R96). -/
namespace Sys2Proof.Machine

/-- The run has not ended: an operation other than RESET may be performed (44_frame_scheduler R204, R206). -/
def Phase.running : Phase → Bool
  | .halted => false
  | .failed => false
  | _ => true

/-- "Enabled when" of 30_encoding R96: RESET always; QUIT, FRAME, RUNCPU, DRAIN and PACE in their phase only; the bus and
keyboard operations, DECODE and RASTERIZE in any phase of a run that has not ended (log 2). -/
def enabled (p : Phase) : Instr → Bool
  | .read _ => p.running
  | .write _ _ => p.running
  | .portinKbd _ _ => p.running
  | .portinFloat _ _ => p.running
  | .portout _ _ _ => p.running
  | .keydown _ => p.running
  | .keyup _ => p.running
  | .quit => p == .drain
  | .decode => p.running
  | .rasterize => p.running
  | .reset => true
  | .frame => p == .runcpu
  | .runcpu => p == .runcpu
  | .drain => p == .drain
  | .pace => p == .pace

/-- A phase in which the running block performs the operation (the column "enabled when" of 30_encoding R96). -/
def homePhase : Instr → Phase
  | .read _ => .runcpu
  | .write _ _ => .runcpu
  | .portinKbd _ _ => .runcpu
  | .portinFloat _ _ => .runcpu
  | .portout _ _ _ => .runcpu
  | .keydown _ => .drain
  | .keyup _ => .drain
  | .quit => .drain
  | .decode => .decode
  | .rasterize => .init
  | .reset => .init
  | .frame => .runcpu
  | .runcpu => .runcpu
  | .drain => .drain
  | .pace => .pace

/-- Why an operation that is not enabled is not performed. -/
def stopped (s : State) : Host.Outcome (Instr × State) Fault Refusal :=
  match s.phase with
  | .halted => .fault .halted
  | .failed => .fault (.fatalInit s.failure)
  | p => .refused (.notEnabled p)

/-- The operation the sequencer performs by itself in each phase; none once the run has ended (44_frame_scheduler R190,
R191, R204). -/
def ownOperation : Phase → Option Instr
  | .init => some .reset
  | .runcpu => some .runcpu
  | .drain => some .drain
  | .decode => some .decode
  | .pace => some .pace
  | .halted => none
  | .failed => none

/-- The next operation and the state it is performed in: the oldest transaction word, or the sequencer's own. -/
def nextOperation (s : State) : Host.Outcome (Instr × State) Fault Refusal :=
  match s.transport with
  | w :: rest =>
    match decode w with
    | .error e => .refused (.undecodable e)
    | .ok i => if enabled s.phase i then .next (i, { s with transport := rest }) else stopped s
  | [] =>
    match ownOperation s.phase with
    | some i => .next (i, s)
    | none => stopped s

/-- The phase with an operation enabled: unchanged where it is enabled already. -/
def phaseEnabling (p : Phase) (word : Word) : Phase :=
  match decode word with
  | .ok i => if enabled p i then p else homePhase i
  | .error _ => p

end Sys2Proof.Machine
end

