-- ==== Sys2Proof/Machine/Step.lean ====
section
/-! DEFINITION. One step of the machine: the host's pending notifications land, then the next operation is performed
(00_scope R9, R10); and the host's way of presenting one operation. -/
namespace Sys2Proof.Machine

/-- One step. -/
def step (s : State) : Host.Outcome State Fault Refusal :=
  match nextOperation s.deliver with
  | .next (i, t) => exec i t
  | .fault r => .fault r
  | .refused r => .refused r

/-- `s` with the word `w` (its low `nbits` bits) presented as the next transaction, in a phase that enables it. -/
def State.withFetchWord (s : State) (nbits w : Nat) : State :=
  { s with transport := tableWord nbits w :: s.transport, phase := phaseEnabling s.phase (tableWord nbits w) }

end Sys2Proof.Machine
end

