-- ==== Sys2Proof/Safety.lean ====
section
/-! DEFINITION. What a sound state and a safe step are, in the terms the statements use. -/
namespace Sys2Proof.Machine

/-- A session whose RESET has succeeded: neither before reset nor after a failed one (10_state R45). -/
def State.live (s : State) : Bool := s.phase != .init && s.phase != .failed

/-- What every step keeps: memory in canonical form; and, in a live session, a launch RESET accepted, nothing written
below PROT_BOUNDARY (10_state R42), bits 7 to 5 of every row and the dummy slot as reset left them (R24, R25), the atlas
RASTERIZE built (R30), no failure reported, HALTED only after a termination request (44_frame_scheduler R203); after a
failed reset, EXIT_FAIL reported (60_exceptions R221). -/
structure State.Sound (s : State) : Prop where
  memory : Memory.wf s.launch s.mem = true
  launched : s.live = true → legalLaunch s.launch = true ∧ s.launch.surfaceOk = true ∧ s.launch.atlasOk = true
  protectedKept : s.live = true → ∀ c ∈ s.mem, Config.protBoundary ≤ c.1
  matrixHigh : s.live = true → ∀ row : Row, matrixRow s.kbd row &&& 0xE0 = 0xE0
  matrixDummy : s.live = true → s.kbd[8] = Config.releasedRow
  atlasBuilt : s.live = true → s.atlas = rasterisedAtlas s.launch
  noFailure : s.live = true → s.exitStatus = none ∧ s.failure = none
  haltedByQuit : s.phase = .halted → s.quit = true
  failedReported : s.phase = .failed → s.exitStatus = some s.launch.cfg.exitFail ∧ s.failure.isSome = true

/-- The outcome of performing operations one after another, stopping at the first that stops. -/
def execAll : List Instr → State → Host.Outcome State Fault Refusal
  | [], s => .next s
  | i :: rest, s =>
    match exec i s with
    | .next t => execAll rest t
    | .fault r => .fault r
    | .refused r => .refused r

/-- The edges of the frame loop (44_frame_scheduler R191). -/
def loopEdge : Phase → Phase → Bool
  | .runcpu, .drain => true
  | .drain, .decode => true
  | .decode, .pace => true
  | .pace, .runcpu => true
  | .pace, .halted => true
  | _, _ => false

/-- The next step of `s` performs the operation `i`. -/
def Performs (s : State) (i : Instr) : Prop := ∃ u, nextOperation s.deliver = .next (i, u)

/-- The operation DRAIN routes a notification to: one KEYDOWN, one KEYUP, one QUIT, or none (44_frame_scheduler R197 to
R200). -/
def routed : Notification → List Instr
  | .keyDown k => [.keydown k]
  | .keyUp k => [.keyup k]
  | .quit => [.quit]
  | .other => []

/-- The operation of 30_encoding R96 that a bus operation of the CPU core is: PORTIN.KBD on an even port, PORTIN.FLOAT on an
odd one (30_encoding R94). -/
def BusOp.instr : BusOp → Instr
  | .read a => .read a
  | .write a v => .write a v
  | .portIn port rowsel => if port.getLsbD 0 then .portinFloat port rowsel else .portinKbd port rowsel
  | .portOut port v => .portout port v 0

/-- A key operation: the key, and whether it is pressed. -/
abbrev KeyEvent := KeyId × Bool

/-- The operation of a key event. -/
def KeyEvent.op (e : KeyEvent) : Instr := if e.2 then .keydown e.1 else .keyup e.1

/-- The key is held after the events: the last event of the key is a press (10_state R27). -/
def heldAfter (events : List KeyEvent) (key : KeyId) : Bool :=
  ((events.filter fun e => e.1 == key).getLast?.map Prod.snd).getD false

/-- No two different keys of the events drive a common matrix bit (10_state R27). -/
def NoSharedBit (c : Config) (events : List KeyEvent) : Prop :=
  ∀ e ∈ events, ∀ f ∈ events, e.1 ≠ f.1 → ∀ b ∈ drivenBits c e.1, b ∉ drivenBits c f.1

/-- Bit `col` of `KBD[row]`. -/
def matrixBit (k : Matrix) (row : Row) (col : Nat) : Bool := (matrixRow k row).getLsbD col

/-- A state that differs from another at most in what the emulated program cannot read: everything but memory's contents,
the matrix, the CPU core and the session's inputs (60_exceptions R231). -/
def SameForProgram (s t : State) : Prop :=
  t.mem = s.mem ∧ t.kbd = s.kbd ∧ t.cpu = s.cpu ∧ t.launch = s.launch

/-- The state with its host clock replaced. -/
def State.setClock (s : State) (c : HostClock) : State := { s with clock := c }

/-- The outcome with the host clock of its next state replaced. -/
def withClock (c : HostClock) : Host.Outcome State Fault Refusal → Host.Outcome State Fault Refusal
  | .next t => .next (t.setClock c)
  | .fault r => .fault r
  | .refused r => .refused r

end Sys2Proof.Machine
end

