-- ==== Sys2Proof/Certificates/Slice0/Obligations.lean ====
section
/-! DEFINITION. The statements for the provers. Each docstring names the rule of spec/ it formalises; OBLIGATIONS.json lists
them. -/

open Sys2Proof Sys2Proof.Machine

/-! ### Transport -/

/-- R92 to R94: the word of a well-formed operation decodes to it, every operand at every value. -/
def Obligations.DecodeOfEncode : Prop :=
  ∀ i : Instr, i.wellFormed = true → decode (encode i) = .ok i

/-- R92 to R94: a word that decodes is the word of the operation it decodes to, which is well formed. For PORTOUT this
rests on the model's choice to keep the field `hi`, which R93 says the operation ignores, in the constructor (log 20, DESIGN
CHOICE): by R93 alone 256 words spell one PORTOUT. -/
def Obligations.EncodeOfDecode : Prop :=
  ∀ (w : Word) (i : Instr), decode w = .ok i → i.wellFormed = true ∧ encode i = w

/-- R95: the rows of the table are pairwise disjoint; a word that decodes is of its operation's row; a word of no row is
refused by the decoder's own reason and given no meaning. -/
def Obligations.DecodingIsTotalAndDisjoint : Prop :=
  ∀ w : Word,
    (∀ m n : Fin 15, (tableRows[m.val]!).hits w = true → (tableRows[n.val]!).hits w = true → m = n) ∧
    (∀ i, decode w = .ok i → (tableRows[i.tableIndex]!).hits w = true) ∧
    ((∃ e, decode w = .error e) ↔ ∀ r ∈ tableRows, r.hits w = false) ∧
    (∀ s rest, s.transport = w :: rest → (∀ r ∈ tableRows, r.hits w = false) →
      ∃ e, decode w = .error e ∧ step s = .refused (.undecodable e))

/-- 95_test_vectors 2.8: the spec's own words decode as it says. -/
def Obligations.SpecWordsDecode : Prop :=
  decode 0x00123400 = .ok (.read 0x1234) ∧ decode 0x103FFFAA = .ok (.write 0x3FFF 0xAA) ∧
  decode 0x20FEFE00 = .ok (.portinKbd 0xFE 0xFE) ∧ decode 0x20FEFF00 = .ok (.portinFloat 0xFF 0xFE) ∧
  decode 0x3012FE00 = .ok (.portout 0xFE 0x00 0x12) ∧ decode 0x40000800 = .ok (.keydown 0x0008) ∧
  decode 0x50004400 = .ok (.keyup 0x0044) ∧ decode 0x60000000 = .ok .quit ∧ decode 0x70000000 = .ok .decode ∧
  decode 0x80000000 = .ok .rasterize ∧ decode 0x90000000 = .ok .reset ∧ decode 0xA0000000 = .ok .frame ∧
  decode 0xB0000000 = .ok .runcpu ∧ decode 0xC0000000 = .ok .drain ∧ decode 0xD0000000 = .ok .pace ∧
  decode 0x00123401 = .error .operandFieldNonzero ∧ decode 0x01123400 = .error .zeroFieldNonzero ∧
  decode 0x60000100 = .error .operandFieldNonzero ∧ decode 0xE0000000 = .error .unassignedOp

/-! ### The step -/

/-- R96, R191, R227: a step performs the oldest transaction word when it decodes to an operation that R96 enables: RESET in
every phase, so out of HALTED and FAILED too; FRAME and RUNCPU in RUNCPU; DRAIN and QUIT in DRAIN; PACE in PACE; and the
bus, key, DECODE and RASTERIZE operations in every phase but HALTED and FAILED, which is the model's reading (log 2,
DEDUCED). The host's pending batch lands at the tail of EVQ, the word is taken, and the rest is `exec`. (The transport and
the batches are the model's own, logs 1 and 12.) -/
def Obligations.StepPerformsDecodedWord : Prop :=
  ∀ (s : State) (w : Word) (rest : List Word) (i : Instr),
    s.transport = w :: rest → decode w = .ok i →
    (i = .reset ∨ ((i = .frame ∨ i = .runcpu) ∧ s.phase = .runcpu) ∨ ((i = .drain ∨ i = .quit) ∧ s.phase = .drain) ∨
      (i = .pace ∧ s.phase = .pace) ∨
      (i ∉ [.frame, .runcpu, .drain, .quit, .pace] ∧ s.phase ≠ .halted ∧ s.phase ≠ .failed)) →
    step s = exec i { s with
      transport := rest, evq := s.evq ++ s.arrivals.headD [], arrivals := s.arrivals.tail }

/-- With no word presented, a step performs the operation of the sequencer's phase (10_state R36): RESET in INIT, then
RUNCPU, DRAIN, DECODE, PACE. -/
def Obligations.StepPerformsSequencerPhase : Prop :=
  ∀ s : State, s.transport = [] →
    (s.phase = .init → step s = exec .reset s.deliver) ∧ (s.phase = .runcpu → step s = exec .runcpu s.deliver) ∧
    (s.phase = .drain → step s = exec .drain s.deliver) ∧ (s.phase = .decode → step s = exec .decode s.deliver) ∧
    (s.phase = .pace → step s = exec .pace s.deliver)

/-- R96, R204, R222: an operation that is not enabled is not performed; in HALTED and FAILED none but a new RESET is. -/
def Obligations.DisabledOperationStops : Prop :=
  ∀ (s : State) (w : Word) (rest : List Word) (i : Instr),
    s.transport = w :: rest → decode w = .ok i →
    (s.phase = .halted → i ≠ .reset → step s = .fault .halted) ∧
    (s.phase = .failed → i ≠ .reset → step s = .fault (.fatalInit s.failure)) ∧
    (i = .quit ∨ i = .drain → s.phase ≠ .drain → ∀ t, step s ≠ .next t) ∧
    (i = .frame ∨ i = .runcpu → s.phase ≠ .runcpu → ∀ t, step s ≠ .next t) ∧
    (i = .pace → s.phase ≠ .pace → ∀ t, step s ≠ .next t)

/-- R204, R222: the sequencer itself does nothing more once the run has ended. -/
def Obligations.EndedRunPerformsNothing : Prop :=
  ∀ s : State, s.transport = [] →
    (s.phase = .halted → step s = .fault .halted) ∧ (s.phase = .failed → step s = .fault (.fatalInit s.failure))

/-! ### Bus adapter -/

/-- R111: READ returns `MEM[address]` to the CPU core and changes nothing else. -/
def Obligations.ReadReturnsMemoryByte : Prop :=
  ∀ (s : State) (a : Addr),
    exec (.read a) s = .next { s with cpu := { s.cpu with results := s.readByte a :: s.cpu.results } }

/-- R112: WRITE stores its byte at or above 0x4000 and changes nothing at all below; no other byte of memory and no other
state changes. -/
def Obligations.WriteStoresAboveBoundary : Prop :=
  ∀ (s : State) (a : Addr) (v : Byte), ∃ t, exec (.write a v) s = .next t ∧
    (0x4000 ≤ a.toNat → t.readByte a = v) ∧ (a.toNat < 0x4000 → t = s) ∧
    (∀ b, b ≠ a → t.readByte b = s.readByte b) ∧ { t with mem := s.mem } = s

/-- R112: writing the value a byte already holds changes nothing (equal memories are equal states). -/
def Obligations.WriteSameByteChangesNothing : Prop :=
  ∀ (s : State) (a : Addr), Memory.wf s.launch s.mem = true → exec (.write a (s.readByte a)) s = .next s

/-- R114: PORTIN on an even port returns the row of the lowest clear bit of `rowsel`, 0xFF if there is none; the row is
returned as stored; the port's other bits do not matter; nothing else changes. -/
def Obligations.PortinKbdReturnsLowestRow : Prop :=
  ∀ (s : State) (port rowsel : Byte), ∃ b : Byte,
    exec (.portinKbd port rowsel) s = .next { s with cpu := { s.cpu with results := b :: s.cpu.results } } ∧
    (∀ p : Fin 8, rowsel.getLsbD p.val = false → (∀ q : Fin 8, q < p → rowsel.getLsbD q.val = true) →
      b = matrixRow s.kbd p) ∧
    (rowsel = 0xFF → b = 0xFF) ∧
    ((∀ row : Fin 8, matrixRow s.kbd row &&& 0xE0 = 0xE0) → b &&& 0xE0 = 0xE0)

/-- R115: the selected row as a function of `rowsel` alone, and how many of the 256 values select each row. -/
def Obligations.SelectedRowCounts : Prop :=
  (∀ v : Byte, selrow v = none ↔ v = 0xFF) ∧
  (∀ (v : Byte) (p : Fin 8), selrow v = some p ↔
    v.getLsbD p.val = false ∧ ∀ q : Fin 8, q < p → v.getLsbD q.val = true) ∧
  (∀ (s : State) (port v : Byte), exec (.portinKbd port v) s =
    .next { s with cpu := { s.cpu with results := ((selrow v).map (matrixRow s.kbd)).getD 0xFF :: s.cpu.results } }) ∧
  (∀ p : Fin 8, (List.range 256).countP (fun n => selrow (BitVec.ofNat 8 n) == some p) = 2 ^ (7 - p.val))

/-- R116: PORTIN on an odd port returns 0xFF whatever `rowsel` and the matrix; nothing else changes. -/
def Obligations.PortinFloatReturnsAllOnes : Prop :=
  ∀ (s : State) (port rowsel : Byte),
    exec (.portinFloat port rowsel) s = .next { s with cpu := { s.cpu with results := 0xFF :: s.cpu.results } }

/-- R117: PORTOUT leaves the whole session state unchanged, on every port and byte, its ignored field too. -/
def Obligations.PortoutChangesNothing : Prop :=
  ∀ (s : State) (port byte hi : Byte), exec (.portout port byte hi) s = .next s

/-- R118 (a) to (g): the laws of the bus family. -/
def Obligations.BusFamilyLaws : Prop :=
  ∀ (s : State) (a : Addr) (v port rowsel hi : Byte),
    (a.toNat < 0x4000 → execAll [.write a v, .read a] s = execAll [.read a] s) ∧
    (0x4000 ≤ a.toNat → ∃ t, execAll [.write a v, .read a] s = .next t ∧ t.cpu.results = v :: s.cpu.results) ∧
    (∀ p : Fin 8, ∃ t, exec (.portinKbd port (~~~((1 : Byte) <<< p.val))) s = .next t ∧
      t.cpu.results = matrixRow s.kbd p :: s.cpu.results) ∧
    (∃ t, exec (.portinKbd port 0xFF) s = .next t ∧ t.cpu.results = 0xFF :: s.cpu.results) ∧
    (∃ t, exec (.portinFloat port rowsel) s = .next t ∧ t.cpu.results = 0xFF :: s.cpu.results) ∧
    (∀ i ∈ [Instr.read a, .portinKbd port rowsel, .portinFloat port rowsel, .portout port v hi],
      ∃ t, exec i s = .next t ∧ { t with cpu := s.cpu } = s) ∧
    (∃ t, exec (.write a v) s = .next t ∧ { t with mem := s.mem } = s ∧ ∀ b, b ≠ a → t.readByte b = s.readByte b) ∧
    (∀ i ∈ [Instr.read a, .write a v, .portinKbd port rowsel, .portinFloat port rowsel, .portout port v hi],
      ∃ t, exec i s = .next t ∧ t.kbd = s.kbd)

/-! ### Keyboard matrix -/

/-- R131 to R133: KEYDOWN of the erase key clears bit 0 of rows 0 and 4; of a key mapped to (row, col), bit `col` of that
row; of an unmapped key, nothing. Every other slot, the dummy one too, and every other state is unchanged. -/
def Obligations.KeydownClearsDrivenBits : Prop :=
  ∀ (s : State) (k : KeyId), ∃ t, exec (.keydown k) s = .next t ∧ { t with kbd := s.kbd } = s ∧
    (k = s.launch.cfg.eraseKey →
      t.kbd = (s.kbd.set 0 (s.kbd[0] &&& 0xFE)).set 4 (s.kbd[4] &&& 0xFE)) ∧
    (k ≠ s.launch.cfg.eraseKey →
      (∀ (r : Fin 8) (c : Fin 5), keyTableEntry s.launch.cfg k = some (r, c) →
        t.kbd = s.kbd.set r.val (s.kbd[r.val] &&& ~~~((1 : Byte) <<< c.val))) ∧
      (keyTableEntry s.launch.cfg k = none → t = s))

/-- R134 to R136: KEYUP is the mirror, setting the same bits. -/
def Obligations.KeyupSetsDrivenBits : Prop :=
  ∀ (s : State) (k : KeyId), ∃ t, exec (.keyup k) s = .next t ∧ { t with kbd := s.kbd } = s ∧
    (k = s.launch.cfg.eraseKey →
      t.kbd = (s.kbd.set 0 (s.kbd[0] ||| 0x01)).set 4 (s.kbd[4] ||| 0x01)) ∧
    (k ≠ s.launch.cfg.eraseKey →
      (∀ (r : Fin 8) (c : Fin 5), keyTableEntry s.launch.cfg k = some (r, c) →
        t.kbd = s.kbd.set r.val (s.kbd[r.val] ||| ((1 : Byte) <<< c.val))) ∧
      (keyTableEntry s.launch.cfg k = none → t = s))

/-- R137: pressing twice is pressing once, releasing twice is releasing once; releasing a key whose bits are all 1
already changes nothing. -/
def Obligations.KeyOperationsIdempotent : Prop :=
  ∀ (s : State) (k : KeyId),
    execAll [.keydown k, .keydown k] s = execAll [.keydown k] s ∧
    execAll [.keyup k, .keyup k] s = execAll [.keyup k] s ∧
    ((∀ b ∈ drivenBits s.launch.cfg k, matrixBit s.kbd b.1 b.2.val = true) → exec (.keyup k) s = .next s)

/-- R138: press then release restores a matrix in which every bit the key drives was 1; a bit that was 0 is left 1. -/
def Obligations.PressReleaseRestoresReleasedBits : Prop :=
  ∀ (s : State) (k : KeyId),
    ((∀ b ∈ drivenBits s.launch.cfg k, matrixBit s.kbd b.1 b.2.val = true) →
      execAll [.keydown k, .keyup k] s = .next s) ∧
    (∃ t, execAll [.keydown k, .keyup k] s = .next t ∧
      ∀ b ∈ drivenBits s.launch.cfg k, matrixBit t.kbd b.1 b.2.val = true)

/-- R139: an operation on a key changes only the bits the key drives, to 0 by a KEYDOWN and to 1 by a KEYUP whatever
they were (so the latest operation on a shared bit wins); the erase key drives (0, 0) and (4, 0). -/
def Obligations.KeyOperationsTouchOnlyDrivenBits : Prop :=
  ∀ (s : State) (k : KeyId), ∃ t u, exec (.keydown k) s = .next t ∧ exec (.keyup k) s = .next u ∧
    (∀ (row : Fin 8) (col : Nat), (∃ b ∈ drivenBits s.launch.cfg k, b.1 = row ∧ b.2.val = col) →
      matrixBit t.kbd row col = false ∧ matrixBit u.kbd row col = true) ∧
    (∀ (row : Fin 8) (col : Nat), (¬ ∃ b ∈ drivenBits s.launch.cfg k, b.1 = row ∧ b.2.val = col) →
      matrixBit t.kbd row col = matrixBit s.kbd row col ∧ matrixBit u.kbd row col = matrixBit s.kbd row col) ∧
    t.kbd[8] = s.kbd[8] ∧ u.kbd[8] = s.kbd[8] ∧ drivenBits s.launch.cfg s.launch.cfg.eraseKey = [(0, 0), (4, 0)]

/-- R262: when two held keys drive a common bit, releasing either releases it, and the second release then changes
nothing; the erase key releases the ordinary key at (0, 0); the key at (4, 0) undoes half of an erase. -/
def Obligations.SharedBitReleasesEarly : Prop :=
  ∀ (s : State) (j k : KeyId),
    (∀ b : Fin 8 × Fin 5, b ∈ drivenBits s.launch.cfg j → b ∈ drivenBits s.launch.cfg k →
      ∀ first second : KeyId, (first, second) ∈ [(j, k), (k, j)] →
        ∃ t, execAll [.keydown j, .keydown k, .keyup first] s = .next t ∧ matrixBit t.kbd b.1 b.2.val = true ∧
          (drivenBits s.launch.cfg second = [b] → exec (.keyup second) t = .next t)) ∧
    (k ≠ s.launch.cfg.eraseKey → keyTableEntry s.launch.cfg k = some (0, 0) →
      ∃ t, execAll [.keydown k, .keydown s.launch.cfg.eraseKey, .keyup s.launch.cfg.eraseKey] s = .next t ∧
        matrixBit t.kbd 0 0 = true) ∧
    (k ≠ s.launch.cfg.eraseKey → keyTableEntry s.launch.cfg k = some (4, 0) →
      ∃ t, execAll [.keydown s.launch.cfg.eraseKey, .keyup k] s = .next t ∧
        matrixBit t.kbd 0 0 = false ∧ matrixBit t.kbd 4 0 = true)

/-- R27 as it holds: from a matrix with no key held, after any key operations on keys no two of which share a bit, a bit
is 0 exactly when a held key drives it. (R27 asks the condition of the keys that were ever held; it is needed of the keys
released without a press too, log 24.) -/
def Obligations.MatrixShowsHeldKeys : Prop :=
  ∀ (s : State) (events : List KeyEvent), s.kbd = Vector.replicate 9 0xFF → NoSharedBit s.launch.cfg events →
    ∃ t, execAll (events.map KeyEvent.op) s = .next t ∧
      ∀ (row : Fin 8) (col : Fin 5),
        matrixBit t.kbd row col.val = false ↔
          ∃ k, heldAfter events k = true ∧ (row, col) ∈ drivenBits s.launch.cfg k

/-! ### Display decoder -/

/-- R212, R151: the pointer is `lo + 256 * hi`, from the byte at DFILE_PTR_ADDR and the one at the next address modulo
65536. -/
def Obligations.PointerIsLittleEndian : Prop :=
  ∀ s : State, (s.readPointer).toNat =
    (s.readByte s.launch.cfg.dfilePtrAddr).toNat + 256 * (s.readByte (s.launch.cfg.dfilePtrAddr + 1)).toNat

/-- R152: the cursor walk reads the byte of cell (r, c) at `(D + 1 + 33*r + c) mod 65536`. -/
def Obligations.CellAddressClosedForm : Prop :=
  ∀ (s : State) (r c : Nat), r < 24 → c < 32 →
    displayByte (displayCells s) r c =
      memRead s.launch s.mem ((s.readPointer.toNat + 1 + 33 * r + c) % 65536)

/-- R153 to R156: DECODE completes from every state, and every pixel (y, x), whatever FB held, is pixel (y mod 16, x mod 16) of the tile named by
the byte of cell (y div 16, x div 16). -/
def Obligations.DecodeDrawsEveryPixel : Prop :=
  ∀ s : State, ∃ t f, exec .decode s = .next t ∧ t.fb = some f ∧
    ∀ (y x : Nat) (hy : y < 384) (hx : x < 512),
      f[y][x] =
        ((s.atlas[(s.readByte (cellAddr s.readPointer (y / 16) (x / 16))).toNat]'(BitVec.isLt _))[y % 16]'(
          Nat.mod_lt _ (by decide)))[x % 16]'(Nat.mod_lt _ (by decide))

/-- R150, R158, R191: DECODE changes FB; as loop step 3 it also moves on to PACE and spends its time, the
clock's T0 and sleeps as they were (the clock is the model's, log 19; DECODE in another phase, log 18); nothing else. -/
def Obligations.DecodeFrame : Prop :=
  ∀ s : State, ∃ t, exec .decode s = .next t ∧
    { t with fb := s.fb, phase := s.phase, clock := s.clock } = s ∧
    (s.phase = .decode → t.phase = .pace ∧ t.clock = { s.clock with
      now := s.clock.now + s.clock.durations.headD 0, durations := s.clock.durations.tail }) ∧
    (s.phase ≠ .decode → t.phase = s.phase ∧ t.clock = s.clock)

/-- R71, R152: DECODE depends on memory through the two pointer bytes and the 768 cell bytes only; the byte at `D` and the
byte after each row are none of the cells. -/
def Obligations.DecodeFootprint : Prop :=
  (∀ s u : State, u.atlas = s.atlas → u.launch.cfg.dfilePtrAddr = s.launch.cfg.dfilePtrAddr →
    u.readByte s.launch.cfg.dfilePtrAddr = s.readByte s.launch.cfg.dfilePtrAddr →
    u.readByte (s.launch.cfg.dfilePtrAddr + 1) = s.readByte (s.launch.cfg.dfilePtrAddr + 1) →
    (∀ r < 24, ∀ c < 32, u.readByte (cellAddr s.readPointer r c) = s.readByte (cellAddr s.readPointer r c)) →
    ∃ t t', exec .decode s = .next t ∧ exec .decode u = .next t' ∧ t'.fb = t.fb) ∧
  (∀ (d : Addr) (r c r' : Nat), r < 24 → c < 32 → r' < 24 →
    cellAddr d r c ≠ d ∧ cellAddr d r c ≠ d + BitVec.ofNat 16 (33 + 33 * r'))

/-- R157: the document's end-to-end scenario. -/
def Obligations.SolidGlyphFillsScreen : Prop :=
  ∀ s : State, legalLaunch s.launch = true → s.atlas = rasterisedAtlas s.launch →
    (∀ y < 8, romByte s.launch (s.launch.cfg.charTableOffset + y) = 0xFF) →
    (∀ r < 24, ∀ c < 32, s.readByte (cellAddr s.readPointer r c) = 0) →
    ∃ t f, exec .decode s = .next t ∧ t.fb = some f ∧
      ∀ (y x : Nat) (hy : y < 384) (hx : x < 512), f[y][x] = s.launch.cfg.ink

/-! ### Glyph rasteriser -/

/-- R175, R173: the pixels of the painted tiles, normal and inverse. -/
def Obligations.RasterizePaintsGlyphs : Prop :=
  ∀ s : State, legalLaunch s.launch = true → s.launch.atlasOk = true →
    ∃ t, exec .rasterize s = .next t ∧ { t with atlas := s.atlas } = s ∧
      ∀ (k y x : Nat) (hk : k < s.launch.cfg.nChars) (hy : y < 16) (hx : x < 16) (hk' : k < 256)
        (hki : k + s.launch.cfg.invOffset < 256) (bit : Bool),
        bit = (romByte s.launch (s.launch.cfg.charTableOffset + 8 * k + y / 2)).getLsbD
          (if s.launch.cfg.glyphMsbLeft then 7 - x / 2 else x / 2) →
        (t.atlas[k][y][x] = if bit then s.launch.cfg.ink else s.launch.cfg.paper) ∧
        (t.atlas[k + s.launch.cfg.invOffset][y][x] = if bit then s.launch.cfg.paper else s.launch.cfg.ink) ∧
        t.atlas[k][y][x] ≠ t.atlas[k + s.launch.cfg.invOffset][y][x]

/-- R174: every pixel of every tile that no code paints is ATLAS_FILL. -/
def Obligations.RasterizeFillsOtherTiles : Prop :=
  ∀ s : State, legalLaunch s.launch = true → s.launch.atlasOk = true →
    ∃ t, exec .rasterize s = .next t ∧
      ∀ (n y x : Nat) (hn : n < 256) (hy : y < 16) (hx : x < 16), s.launch.cfg.nChars ≤ n →
        ¬ (s.launch.cfg.invOffset ≤ n ∧ n < s.launch.cfg.invOffset + s.launch.cfg.nChars) →
        t.atlas[n][y][x] = s.launch.cfg.atlasFill

/-- R176: two sessions with the same CHAR_TABLE_OFFSET, N_CHARS, INV_OFFSET, INK, PAPER, ATLAS_FILL and bit order (R173) and
the same table bytes rasterise the same atlas, whatever else they hold, the rest of the configuration and the previous atlas
too; rasterising twice is rasterising once; no operation but a new RESET writes it otherwise. -/
def Obligations.RasterizeIsDeterministic : Prop :=
  (∀ s u : State, legalLaunch s.launch = true → legalLaunch u.launch = true → s.launch.atlasOk = true →
    u.launch.atlasOk = true → u.launch.cfg.charTableOffset = s.launch.cfg.charTableOffset →
    u.launch.cfg.nChars = s.launch.cfg.nChars → u.launch.cfg.invOffset = s.launch.cfg.invOffset →
    u.launch.cfg.ink = s.launch.cfg.ink → u.launch.cfg.paper = s.launch.cfg.paper →
    u.launch.cfg.atlasFill = s.launch.cfg.atlasFill → u.launch.cfg.glyphMsbLeft = s.launch.cfg.glyphMsbLeft →
    (∀ n < 8 * s.launch.cfg.nChars, romByte u.launch (s.launch.cfg.charTableOffset + n) =
      romByte s.launch (s.launch.cfg.charTableOffset + n)) →
    ∃ t t', exec .rasterize s = .next t ∧ exec .rasterize u = .next t' ∧ t'.atlas = t.atlas) ∧
  (∀ s : State, s.launch.atlasOk = true →
    execAll [.rasterize, .rasterize] s = execAll [.rasterize] s) ∧
  (∀ (i : Instr) (s t : State), i ≠ .rasterize → i ≠ .reset → exec i s = .next t → t.atlas = s.atlas)

/-! ### Frame scheduler -/

/-- R190, R192: if some number of CPU steps raises CYC by the budget, RUNCPU reads T0 from NOW and steps the CPU core, at
least once, to the first instruction boundary at which CYC has risen by the budget since entry; then DRAIN is next. R193,
R194, R110 to R117: one CPU step issues its bus operations one after another, each the operation the core's move names in
the core's own state and with the effect `exec` gives READ, WRITE, PORTIN.KBD (even port), PORTIN.FLOAT (odd port) or
PORTOUT; the core's next state is decided with the byte returned before the next is issued; then its cycles are added to
CYC. (The core as a finite table of moves, its bound on the operations of one step, and the clock in milliseconds are the
model's, logs 9 and 19.) -/
def Obligations.RuncpuStopsAtBudget : Prop :=
  (∀ s : State, 1 ≤ s.launch.cfg.frameBudget →
    (∃ n, s.launch.cfg.frameBudget ≤ (State.cpuStep^[n] s).cpu.cyc - s.cpu.cyc) →
    ∃ (n : Nat) (t : State), 1 ≤ n ∧ exec .runcpu s = .next t ∧ t.phase = .drain ∧
      t.clock = { s.clock with
        t0 := s.clock.now, now := s.clock.now + s.clock.durations.headD 0, durations := s.clock.durations.tail } ∧
      { t with phase := s.phase, clock := s.clock } = State.cpuStep^[n] s ∧
      s.launch.cfg.frameBudget ≤ t.cpu.cyc - s.cpu.cyc ∧
      ∀ m < n, (State.cpuStep^[m] s).cpu.cyc - s.cpu.cyc < s.launch.cfg.frameBudget) ∧
  (∀ s : State, s.cpuStep = s.stepWithin s.cpu.opsPerStep) ∧
  (∀ (s : State) (n : Nat) (o : BusOp), s.cpu.move.op = some o →
    ∃ u, exec o.instr s = .next u ∧
      s.stepWithin (n + 1) = State.stepWithin n { u with cpu := { u.cpu with
        state := s.cpu.move.after (if o.returns then u.cpu.results.head? else none) } }) ∧
  (∀ (s : State) (n : Nat), s.cpu.move.op = none ∨ n = 0 →
    s.stepWithin n = { s with cpu := { s.cpu with
      cyc := s.cpu.cyc + s.cpu.move.cycles, state := s.cpu.move.next } })

/-- R195: RUNCPU never ends exactly when no number of CPU steps raises CYC by the budget; it ends when every step raises CYC
by at least 1. That the hang of R195 is the fault `cpuNotCounting` is the model's form of it (log 13, DESIGN CHOICE). -/
def Obligations.RuncpuHangsWithoutProgress : Prop :=
  ∀ s : State,
    (exec .runcpu s = .fault .cpuNotCounting ↔
      ∀ n, (State.cpuStep^[n] s).cpu.cyc - s.cpu.cyc < s.launch.cfg.frameBudget) ∧
    ((∀ n, (State.cpuStep^[n] s).cpu.cyc < (State.cpuStep^[n + 1] s).cpu.cyc) →
      ∃ t, exec .runcpu s = .next t)

/-- R196: one frame's CPU phase takes at least the budget and less than the budget plus the longest instruction, from its
own `c0`; the core's steps take the cycles of its moves or of its idle step (log 9). -/
def Obligations.RuncpuOvershootsByLessThanOneStep : Prop :=
  ∀ (s t : State) (longest : Nat), 1 ≤ s.launch.cfg.frameBudget → s.cpu.idle ≤ longest →
    (∀ x ∈ s.cpu.moves, x.cycles ≤ longest) → exec .runcpu s = .next t →
    s.cpu.cyc + s.launch.cfg.frameBudget ≤ t.cpu.cyc ∧ t.cpu.cyc < s.cpu.cyc + s.launch.cfg.frameBudget + longest

/-- R231, R192, R110, R112: the emulated program changes, through RUNCPU, no byte below 0x4000, no byte that no move of the CPU
core writes to, no matrix byte, and nothing else of the block but memory and the step to DRAIN. -/
def Obligations.ProgramChangesOnlyMemory : Prop :=
  ∀ s t : State, exec .runcpu s = .next t →
    (∀ a : Addr, a.toNat < 0x4000 → t.readByte a = s.readByte a) ∧
    (∀ a : Addr, (∀ x ∈ s.cpu.moves, ∀ v, x.op ≠ some (.write a v)) → t.readByte a = s.readByte a) ∧
    t.phase = .drain ∧
    { t with mem := s.mem, cpu := s.cpu, clock := s.clock, phase := s.phase } = s

/-- R231: what the emulated program is given, and the memory it leaves, do not depend on FB, ATLAS, EVQ, `quit`, the clock
or anything else it cannot read: two runs of one CPU core, which reacts to the bytes returned to it. (The CPU core is the
model's finite table of moves, log 9.) -/
def Obligations.ProgramCannotReadTheRest : Prop :=
  ∀ s u t : State, SameForProgram s u → exec .runcpu s = .next t →
    ∃ t', exec .runcpu u = .next t' ∧ t'.cpu = t.cpu ∧ t'.mem = t.mem

/-- R197, R198, R199, R200: DRAIN empties the queue, routing each notification in arrival order to exactly one operation, an
`Other` to none, to the end of the queue also after a Quit; then DECODE is next. It spends its time, T0 and the sleeps as
they were (the clock is the model's, log 19, DESIGN CHOICE). -/
def Obligations.DrainRoutesEveryNotification : Prop :=
  ∀ s : State, ∃ t u, exec .drain s = .next t ∧ execAll (s.evq.flatMap routed) s = .next u ∧
    t.evq = [] ∧ t.phase = .decode ∧ t.kbd = u.kbd ∧ t.quit = u.quit ∧
    t.clock = { s.clock with
      now := s.clock.now + s.clock.durations.headD 0, durations := s.clock.durations.tail } ∧
    { t with evq := s.evq, phase := s.phase, kbd := s.kbd, quit := s.quit, clock := s.clock } = s

/-- R199, R200: DRAIN sets `quit` exactly when a Quit was pending; nothing it does clears it. -/
def Obligations.DrainDetectsTermination : Prop :=
  ∀ s t : State, exec .drain s = .next t → (t.quit = true ↔ s.quit = true ∨ Notification.quit ∈ s.evq)

/-- R263: a press and a release drained together leave the matrix as it was, if the key's bits were released. -/
def Obligations.PressReleaseInOneDrainInvisible : Prop :=
  ∀ (s : State) (k : KeyId), s.evq = [.keyDown k, .keyUp k] →
    (∀ b ∈ drivenBits s.launch.cfg k, matrixBit s.kbd b.1 b.2.val = true) →
    ∃ t, exec .drain s = .next t ∧ t.kbd = s.kbd

/-- R199: QUIT sets `quit` and changes nothing else. -/
def Obligations.QuitSetsFlag : Prop :=
  ∀ s : State, exec .quit s = .next { s with quit := true }

/-- R35: no operation but the RESET of a new session clears `quit`. -/
def Obligations.NothingClearsQuit : Prop :=
  ∀ (i : Instr) (s t : State), i ≠ .reset → exec i s = .next t → s.quit = true → t.quit = true

/-- R203: after PACE the phase is HALTED if `quit` is 1, else RUNCPU. R201: the sleep asked of the host is exactly what is
left of 20 ms, and none at 20 ms or more. Nothing else changes. -/
def Obligations.PaceSleepsAndTestsQuit : Prop :=
  ∀ s : State, ∃ t, exec .pace s = .next t ∧
    (s.quit = true → t.phase = .halted) ∧ (s.quit = false → t.phase = .runcpu) ∧
    (s.clock.now - s.clock.t0 < 20 →
      t.clock = { s.clock with
        now := s.clock.now + (20 - (s.clock.now - s.clock.t0))
        sleeps := (20 - (s.clock.now - s.clock.t0)) :: s.clock.sleeps }) ∧
    (20 ≤ s.clock.now - s.clock.t0 → t.clock = s.clock) ∧
    { t with phase := s.phase, clock := s.clock } = s

/-- R190: FRAME is RUNCPU; DRAIN; DECODE; PACE. -/
def Obligations.FrameIsItsFourSteps : Prop :=
  ∀ s : State, exec .frame s = execAll [.runcpu, .drain, .decode, .pace] s

/-- R190, R203, R205: with a CPU core that makes progress a frame completes, empties the queue and redraws; it ends HALTED
exactly when a termination request had been or was drained, and otherwise at the next frame's RUNCPU. -/
def Obligations.FrameCompletesAndHaltsOnRequest : Prop :=
  ∀ s : State, s.cpuProgress = true →
    ∃ t, exec .frame s = .next t ∧ t.evq = [] ∧ t.fb.isSome = true ∧
      (t.phase = .halted ↔ s.quit = true ∨ Notification.quit ∈ s.evq) ∧
      (t.phase ≠ .halted → t.phase = .runcpu)

/-- R190, R191: four steps of the running block, with nothing appended by the host between them, are one FRAME. -/
def Obligations.FourStepsAreOneFrame : Prop :=
  ∀ s : State, s.phase = .runcpu → s.transport = [] → s.arrivals = [] →
    core.run 4 s = exec .frame s

/-- R191: a step keeps the phase, takes an edge of the loop, or performs FRAME (from RUNCPU to RUNCPU or HALTED), RESET (to
RUNCPU or FAILED) or a RASTERIZE that fails. -/
def Obligations.PhaseTransitionsComplete : Prop :=
  ∀ s t : State, step s = .next t →
    t.phase = s.phase ∨ loopEdge s.phase t.phase = true ∨
    (Performs s .frame ∧ s.phase = .runcpu ∧ (t.phase = .runcpu ∨ t.phase = .halted)) ∨
    (Performs s .reset ∧ (t.phase = .runcpu ∨ t.phase = .failed)) ∨
    (Performs s .rasterize ∧ s.launch.atlasOk = false ∧ t.phase = .failed)

/-- R276: no duration changes anything but the clock: two states that differ in the clock only step alike. -/
def Obligations.TimeChangesOnlyTheClock : Prop :=
  ∀ (s : State) (c d : HostClock), withClock d (step (s.setClock c)) = withClock d (step s)

/-! ### Reset and failure -/

/-- R250 to R258, R45, R46: a RESET with a legal launch and a host that can build surface and atlas leaves memory with the
ROM at 0 and at the mirror and RAM_INIT elsewhere (R251), the matrix released (R252), `quit` 0 (R253), FB without value
(R254), the atlas rasterised (R255), phase RUNCPU (R257), and nothing of the session before (R46). Where the launch comes
from, that it brings the pending notifications, the CPU core and the clock, and the model's own fields, are log 17. -/
def Obligations.ResetLeavesSpecifiedValues : Prop :=
  ∀ (s : State) (l : Launch), l = s.launches.headD s.launch → legalLaunch l = true → l.surfaceOk = true →
    l.atlasOk = true →
    ∃ t, exec .reset s = .next t ∧ t.launch = l ∧ t.phase = .runcpu ∧ t.quit = false ∧ t.fb = none ∧
      t.kbd = Vector.replicate 9 0xFF ∧ t.atlas = rasterisedAtlas l ∧ t.exitStatus = none ∧ t.failure = none ∧
      (∀ a : Addr, t.readByte a =
        if a.toNat < l.cfg.romSize then romByte l a.toNat
        else if l.cfg.mirrorOffset ≤ a.toNat ∧ a.toNat < l.cfg.mirrorOffset + l.cfg.romSize then
          romByte l (a.toNat - l.cfg.mirrorOffset)
        else ramInitByte l a.toNat) ∧
      t.evq = l.pending ∧ t.cpu = l.cpu ∧ t.clock = l.clock ∧ t.transport = s.transport ∧ t.arrivals = s.arrivals ∧
      t.launches = s.launches.tail ∧ t.draws = s.draws

/-- R251: immediately after a RESET the low ROM region and its mirror hold identical bytes, the ROM image's. -/
def Obligations.ResetCopiesRomTwice : Prop :=
  ∀ s t : State, exec .reset s = .next t → t.phase = .runcpu →
    ∀ i < t.launch.cfg.romSize,
      memRead t.launch t.mem i = romByte t.launch i ∧
      memRead t.launch t.mem (t.launch.cfg.mirrorOffset + i) = romByte t.launch i

/-- R221, R222, R226 (a), R254, R255: a RESET the host makes fail ends in FAILED with EXIT_FAIL and the cause reported, the
surface's when both would fail. That the failure is a next state with fields for the status and the cause is the model's
form of it (log 16, DESIGN CHOICE). -/
def Obligations.FailedResetReports : Prop :=
  ∀ (s : State) (l : Launch), l = s.launches.headD s.launch → legalLaunch l = true →
    (l.surfaceOk = false →
      ∃ t, exec .reset s = .next t ∧ t.phase = .failed ∧ t.failure = some .surface ∧ t.exitStatus = some l.cfg.exitFail) ∧
    (l.surfaceOk = true → l.atlasOk = false →
      ∃ t, exec .reset s = .next t ∧ t.phase = .failed ∧ t.failure = some .atlas ∧ t.exitStatus = some l.cfg.exitFail)

/-- R177: RASTERIZE raises FatalInit(ATLAS) when the host cannot build the atlas. That the failure is a next state is log
16, that it leaves `quit`, EVQ and the CPU core as they were is log 15 (both the model's choice, DESIGN CHOICE). -/
def Obligations.FailedRasterizeReports : Prop :=
  ∀ s : State, legalLaunch s.launch = true → s.launch.atlasOk = false →
    ∃ t, exec .rasterize s = .next t ∧ t.phase = .failed ∧ t.failure = some .atlas ∧
      t.exitStatus = some s.launch.cfg.exitFail ∧ t.fb = none ∧ t.evq = s.evq ∧ t.cpu = s.cpu ∧ t.quit = s.quit

/-- R8 (a) to (e) and (h), the ranges of R7, R22 (U13, U14): RESET and RASTERIZE refuse exactly a configuration that breaks
a constraint ((f) cannot be broken, log 23, and (g) constrains nothing), and, under a legal one, a ROM image that has not
ROM_SIZE bytes. That a refusal names the reason is the model's (log 22). -/
def Obligations.IllegalLaunchRefused : Prop :=
  ∀ (s : State) (l : Launch) (i : Instr),
    (i = .reset ∧ l = s.launches.headD s.launch) ∨ (i = .rasterize ∧ l = s.launch) →
    (exec i s = .refused .illegalConfig ↔
      ¬ (l.cfg.romSize ≤ 0x4000 ∧ l.cfg.mirrorOffset + l.cfg.romSize ≤ 0x4000 ∧
        l.cfg.romSize ≤ l.cfg.mirrorOffset ∧
        l.cfg.charTableOffset + 8 * l.cfg.nChars ≤ l.cfg.romSize ∧
        l.cfg.nChars ≤ l.cfg.invOffset ∧ l.cfg.invOffset + l.cfg.nChars ≤ 256 ∧
        l.cfg.ink ≠ l.cfg.paper ∧
        1 ≤ l.cfg.frameBudget ∧
        1 ≤ l.cfg.nChars ∧ l.cfg.nChars ≤ 128 ∧ l.cfg.exitFail ≠ 0)) ∧
    (exec i s ≠ .refused .illegalConfig →
      (exec i s = .refused .illegalRom ↔ l.rom.length ≠ l.cfg.romSize) ∧
      (l.rom.length = l.cfg.romSize → ∃ t, exec i s = .next t))

/-- 10_state R45: RESET with the standard launch, in INIT and before anything has happened, gives `State.reset` (whose
values for the external parties are the model's, logs 5 to 8, 11, 12, 17, 19). -/
def Obligations.ResetFromInitIsResetState : Prop :=
  exec .reset { State.reset with phase := .init } = .next State.reset

/-! ### The whole machine -/

/-- Every step keeps a state sound: canonical memory, the protected range, the matrix's fixed bits, the atlas, the report of
a failure (R21, R24, R25, R30, R42, R203, R221). -/
def Obligations.StepKeepsSound : Prop :=
  ∀ s t : State, s.Sound → step s = .next t → t.Sound

/-- The state after reset is sound. -/
def Obligations.ResetStateIsSound : Prop := State.reset.Sound

/-- R42: at every moment of every run from a sound state, in a live session, every byte below 0x4000 is its reset value,
and the ROM and its mirror hold the ROM image. -/
def Obligations.RomAndMirrorNeverDiverge : Prop :=
  ∀ (n : Nat) (s t : State), s.Sound → core.run n s = .next t → t.live = true →
    (∀ a < 0x4000, memRead t.launch t.mem a = resetByte t.launch a) ∧
    ∀ i < t.launch.cfg.romSize,
      memRead t.launch t.mem i = romByte t.launch i ∧
      memRead t.launch t.mem (t.launch.cfg.mirrorOffset + i) = romByte t.launch i

/-- R220, R97, R223: in a live session no operation can fail or be refused, whatever its operands, if the CPU core makes
progress; a session stays live but for the RESET of a new one. -/
def Obligations.NothingFailsOnceRunning : Prop :=
  ∀ (i : Instr) (s : State), s.Sound → s.live = true → s.cpuProgress = true → i ≠ .reset →
    ∃ t, exec i s = .next t ∧ t.live = true

/-- R220, R205: the running block's own step never stops before HALTED, if the CPU core makes progress. -/
def Obligations.RunningBlockNeverStops : Prop :=
  ∀ s : State, s.Sound → s.live = true → s.phase ≠ .halted → s.transport = [] → s.cpuProgress = true →
    ∃ t, step s = .next t ∧ t.Sound ∧ t.live = true

/-- R100: SCAN p is `PORTIN 0xFE, (0xFF & ~(1 << p))` and returns row p, as from any even port; TAP k is KEYDOWN k and
KEYUP k; POKE16 at any address, the next one modulo 65536, is two writes, the word's low byte first, each discarded below
0x4000. -/
def Obligations.PseudoOperationsExpand : Prop :=
  (∀ (s : State) (p : Fin 8) (port : Byte), port.getLsbD 0 = false →
    Pseudo.expand (.scan p) = [.portinKbd 0xFE (0xFF &&& ~~~((1 : Byte) <<< p.val))] ∧
    exec (.portinKbd port (0xFF &&& ~~~((1 : Byte) <<< p.val))) s = execAll (Pseudo.expand (.scan p)) s ∧
    ∃ t, execAll (Pseudo.expand (.scan p)) s = .next t ∧ t.cpu.results = matrixRow s.kbd p :: s.cpu.results) ∧
  (∀ (s : State) (k : KeyId), Pseudo.expand (.tap k) = [.keydown k, .keyup k] ∧
    ∃ t, execAll (Pseudo.expand (.tap k)) s = .next t ∧
      ∀ b ∈ drivenBits s.launch.cfg k, matrixBit t.kbd b.1 b.2.val = true) ∧
  (∀ (s : State) (a : Addr) (w : BitVec 16),
    Pseudo.expand (.poke16 a w) = [.write a (w.extractLsb' 0 8), .write (a + 1) (w.extractLsb' 8 8)] ∧
    ∃ t, execAll (Pseudo.expand (.poke16 a w)) s = .next t ∧
      t.readByte a = (if 0x4000 ≤ a.toNat then w.extractLsb' 0 8 else s.readByte a) ∧
      t.readByte (a + 1) = (if 0x4000 ≤ (a + 1).toNat then w.extractLsb' 8 8 else s.readByte (a + 1)) ∧
      (∀ b, b ≠ a → b ≠ a + 1 → t.readByte b = s.readByte b) ∧ { t with mem := s.mem } = s ∧
      (a = s.launch.cfg.dfilePtrAddr → 0x4000 ≤ a.toNat → a ≠ 0xFFFF → t.readPointer = w))
end

