-- ==== Sys2Proof/Laws/Memory.lean ====
section
/-! SUPPORT. Memory: a read after a write, the canonical form every memory operation keeps, and that canonical memories
that read alike are equal. -/
namespace Sys2Proof.Machine

theorem cellAt_insertCell (a : Nat) (v : Byte) (b : Nat) :
    ∀ m : List Host.Cell, cellAt (insertCell a v m) b = if a = b then some v else cellAt m b
  | [] => by simp [insertCell, cellAt]
  | (c, w) :: rest => by
    have ih := cellAt_insertCell a v b rest
    unfold insertCell
    split
    · simp [cellAt]
    · split
      · next h => subst h; simp only [cellAt]; split <;> rfl
      · next h =>
        simp only [cellAt, ih]
        split
        · next hcb => subst hcb; simp [h]
        · rfl

theorem cellAt_removeCell (a b : Nat) :
    ∀ m : List Host.Cell, cellAt (removeCell a m) b = if a = b then none else cellAt m b
  | [] => by simp [removeCell, cellAt]
  | (c, w) :: rest => by
    have ih := cellAt_removeCell a b rest
    unfold removeCell at ih ⊢
    by_cases hca : c = a
    · subst hca
      simp only [List.filter_cons, bne_self_eq_false, Bool.false_eq_true, if_false, ih, cellAt]
      split <;> rfl
    · have hne : (c != a) = true := by simpa using hca
      simp only [List.filter_cons, hne, if_true, cellAt, ih]
      by_cases hcb : c = b
      · subst hcb; simp [Ne.symm hca]
      · simp [hcb]

/-- A read after a write: the byte written at its address, every other byte as before. -/
@[simp] theorem memRead_memWrite (l : Launch) (m : List Host.Cell) (a : Nat) (v : Byte) (b : Nat) :
    memRead l (memWrite l m a v) b = if b = a then v else memRead l m b := by
  unfold memRead memWrite
  by_cases h : b = a
  · subst h
    split
    · next hv => simp [cellAt_removeCell, hv]
    · simp [cellAt_insertCell]
  · have h' : a ≠ b := fun e => h e.symm
    split
    · simp [cellAt_removeCell, h']
    · simp [cellAt_insertCell, h']

@[simp] theorem memRead_nil (l : Launch) (a : Nat) : memRead l [] a = resetByte l a := rfl

theorem readByte_storeByte (s : State) (a : Addr) (v : Byte) (b : Addr) :
    (s.storeByte a v).readByte b = if b = a then v else s.readByte b := by
  unfold State.readByte State.storeByte
  simp only [memRead_memWrite, BitVec.toNat_inj]

/-- A protected store changes the byte at its own address, and only at or above the boundary. -/
theorem readByte_busWrite (s : State) (a : Addr) (v : Byte) (b : Addr) :
    (s.busWrite a v).readByte b = if b = a ∧ Config.protBoundary ≤ a.toNat then v else s.readByte b := by
  unfold State.busWrite
  by_cases h : a.toNat < Config.protBoundary
  · simp [h, Nat.not_le.mpr h]
  · simp [h, Nat.not_lt.mp h, readByte_storeByte]

/-! ### The canonical form -/

/-- Every listed address is above `a`. -/
theorem risingCells_cons (a : Nat) (v : Byte) (m : List Host.Cell) :
    risingCells ((a, v) :: m) = true ↔ (∀ c ∈ m, a < c.1) ∧ risingCells m = true := by
  induction m generalizing a v with
  | nil => simp [risingCells]
  | cons d rest ih =>
    obtain ⟨b, w⟩ := d
    simp only [risingCells, Bool.and_eq_true, decide_eq_true_eq, List.mem_cons, forall_eq_or_imp, ih b w]
    constructor
    · rintro ⟨hab, hrest, hr⟩
      exact ⟨⟨hab, fun c hc => Nat.lt_trans hab (hrest c hc)⟩, hrest, hr⟩
    · rintro ⟨⟨hab, -⟩, hrest, hr⟩
      exact ⟨hab, hrest, hr⟩

theorem mem_insertCell {a : Nat} {v : Byte} {m : List Host.Cell} {c : Host.Cell} (h : c ∈ insertCell a v m) :
    c = (a, v) ∨ c ∈ m := by
  induction m with
  | nil => simpa [insertCell] using h
  | cons d rest ih =>
    obtain ⟨b, w⟩ := d
    unfold insertCell at h
    split at h
    · simpa using h
    · split at h
      · simp only [List.mem_cons] at h ⊢; tauto
      · simp only [List.mem_cons] at h ⊢; tauto

theorem risingCells_insertCell (a : Nat) (v : Byte) (m : List Host.Cell) (h : risingCells m = true) :
    risingCells (insertCell a v m) = true := by
  induction m with
  | nil => rfl
  | cons d rest ih =>
    obtain ⟨b, w⟩ := d
    obtain ⟨hb, hr⟩ := (risingCells_cons b w rest).mp h
    unfold insertCell
    split
    · next hab =>
      refine (risingCells_cons a v _).mpr ⟨?_, h⟩
      intro c hc
      rcases List.mem_cons.mp hc with rfl | hc
      · exact hab
      · exact Nat.lt_trans hab (hb c hc)
    · next hab =>
      split
      · next he => subst he; exact (risingCells_cons a v rest).mpr ⟨hb, hr⟩
      · next hne =>
        refine (risingCells_cons b w _).mpr ⟨?_, ih hr⟩
        intro c hc
        rcases mem_insertCell hc with rfl | hc
        · exact Nat.lt_of_le_of_ne (Nat.not_lt.mp hab) (fun e => hne e.symm)
        · exact hb c hc

theorem risingCells_filter (p : Host.Cell → Bool) (m : List Host.Cell) (h : risingCells m = true) :
    risingCells (m.filter p) = true := by
  induction m with
  | nil => rfl
  | cons d rest ih =>
    obtain ⟨b, w⟩ := d
    obtain ⟨hb, hr⟩ := (risingCells_cons b w rest).mp h
    rw [List.filter_cons]
    split
    · exact (risingCells_cons b w _).mpr ⟨fun c hc => hb c (List.mem_filter.mp hc).1, ih hr⟩
    · exact ih hr

theorem Memory.wf_iff (l : Launch) (m : List Host.Cell) :
    Memory.wf l m = true ↔ risingCells m = true ∧ ∀ c ∈ m, c.1 < 65536 ∧ c.2 ≠ resetByte l c.1 := by
  have h : 2 ^ addrBits = 65536 := rfl
  simp [Memory.wf, h]

@[simp] theorem Memory.wf_nil (l : Launch) : Memory.wf l [] = true := rfl

/-- A raw store keeps the canonical form. -/
theorem Memory.wf_memWrite {l : Launch} {m : List Host.Cell} (h : Memory.wf l m = true) {a : Nat} (ha : a < 65536)
    (v : Byte) : Memory.wf l (memWrite l m a v) = true := by
  rw [Memory.wf_iff] at h ⊢
  unfold memWrite
  split
  · exact ⟨risingCells_filter _ m h.1, fun c hc => h.2 c (List.mem_filter.mp hc).1⟩
  · next hv =>
    refine ⟨risingCells_insertCell a v m h.1, fun c hc => ?_⟩
    rcases mem_insertCell hc with rfl | hc
    · exact ⟨ha, hv⟩
    · exact h.2 c hc

theorem Memory.wf_storeByte {s : State} (h : Memory.wf s.launch s.mem = true) (a : Addr) (v : Byte) :
    Memory.wf (s.storeByte a v).launch (s.storeByte a v).mem = true := Memory.wf_memWrite h a.isLt v

theorem Memory.wf_busWrite {s : State} (h : Memory.wf s.launch s.mem = true) (a : Addr) (v : Byte) :
    Memory.wf (s.busWrite a v).launch (s.busWrite a v).mem = true := by
  unfold State.busWrite
  split
  · exact h
  · exact Memory.wf_storeByte h a v

theorem risingCells_iff_pairwise (m : List Host.Cell) :
    risingCells m = true ↔ m.Pairwise fun c d => c.1 < d.1 := by
  induction m with
  | nil => simp [risingCells]
  | cons d rest ih => rw [List.pairwise_cons, risingCells_cons, ih]

/-- The free contents after a failed reset have the canonical form too. -/
theorem Memory.wf_undefinedMemory (l : Launch) (n : Nat) : Memory.wf l (undefinedMemory l n) = true := by
  rw [Memory.wf_iff]
  unfold undefinedMemory
  constructor
  · apply risingCells_filter
    rw [risingCells_iff_pairwise, List.pairwise_map]
    exact List.pairwise_lt_range
  · intro c hc
    obtain ⟨hc, hne⟩ := List.mem_filter.mp hc
    obtain ⟨a, ha, rfl⟩ := List.mem_map.mp hc
    exact ⟨List.mem_range.mp ha, by simpa using hne⟩

theorem cellAt_eq_none_of_lt {m : List Host.Cell} {a : Nat} (h : ∀ c ∈ m, a < c.1) : cellAt m a = none := by
  induction m with
  | nil => rfl
  | cons d rest ih =>
    obtain ⟨b, w⟩ := d
    have hb : a < b := h _ (List.mem_cons_self ..)
    simp only [cellAt, Nat.ne_of_gt hb, if_false]
    exact ih fun c hc => h c (List.mem_cons_of_mem _ hc)

theorem cellAt_of_mem {m : List Host.Cell} (hr : risingCells m = true) {c : Host.Cell} (hc : c ∈ m) :
    cellAt m c.1 = some c.2 := by
  induction m with
  | nil => cases hc
  | cons d rest ih =>
    obtain ⟨b, w⟩ := d
    obtain ⟨hb, hr⟩ := (risingCells_cons b w rest).mp hr
    rcases List.mem_cons.mp hc with rfl | hc
    · simp [cellAt]
    · simp only [cellAt, Nat.ne_of_lt (hb c hc), if_false]
      exact ih hr hc

/-- Canonical memories of one launch that read alike at every address are equal. -/
theorem Memory.ext_read {l : Launch} {m m' : List Host.Cell} (h : Memory.wf l m = true) (h' : Memory.wf l m' = true)
    (hread : ∀ a < 65536, memRead l m a = memRead l m' a) : m = m' := by
  rw [Memory.wf_iff] at h h'
  have key : ∀ {x y : List Host.Cell}, risingCells x = true → (∀ c ∈ x, c.1 < 65536 ∧ c.2 ≠ resetByte l c.1) →
      (∀ a < 65536, memRead l x a = memRead l y a) → ∀ c ∈ x, cellAt y c.1 = some c.2 := by
    intro x y hr hx hxy c hc
    have := hxy c.1 (hx c hc).1
    unfold memRead at this
    rw [cellAt_of_mem hr hc] at this
    cases hy : cellAt y c.1 with
    | none => rw [hy] at this; exact absurd this (hx c hc).2
    | some w => rw [hy] at this; simpa using this.symm
  have mem_of : ∀ {y : List Host.Cell} {a : Nat} {v : Byte}, cellAt y a = some v → (a, v) ∈ y := by
    intro y a v hy
    induction y with
    | nil => cases hy
    | cons d rest ih =>
      obtain ⟨b, w⟩ := d
      simp only [cellAt] at hy
      split at hy
      · next hb => cases hb; cases hy; exact List.mem_cons_self ..
      · exact List.mem_cons_of_mem _ (ih hy)
  have sub : ∀ c, c ∈ m ↔ c ∈ m' := fun c =>
    ⟨fun hc => mem_of (key h.1 h.2 hread c hc),
     fun hc => mem_of (key h'.1 h'.2 (fun a ha => (hread a ha).symm) c hc)⟩
  have p := (risingCells_iff_pairwise m).mp h.1
  have p' := (risingCells_iff_pairwise m').mp h'.1
  have nd : ∀ {x : List Host.Cell}, x.Pairwise (fun c d => c.1 < d.1) → x.Nodup := fun hx =>
    hx.imp fun {c d} hcd he => by subst he; exact Nat.lt_irrefl _ hcd
  exact ((List.perm_ext_iff_of_nodup (nd p) (nd p')).mpr sub).eq_of_pairwise
    (fun c d _ _ hcd hdc => absurd (Nat.lt_trans hcd hdc) (Nat.lt_irrefl _)) p p'

end Sys2Proof.Machine
end

