-- ==== Sys2Proof/Laws/State.lean ====
section
/-! SUPPORT. What each named update of the state leaves in each field: one lemma per field per update, so that no later
proof unfolds a record update. -/
namespace Sys2Proof.Machine

/-! ### setQuit -/

@[simp] theorem setQuit_mem (s : State) : s.setQuit.mem = s.mem := rfl
@[simp] theorem setQuit_kbd (s : State) : s.setQuit.kbd = s.kbd := rfl
@[simp] theorem setQuit_atlas (s : State) : s.setQuit.atlas = s.atlas := rfl
@[simp] theorem setQuit_fb (s : State) : s.setQuit.fb = s.fb := rfl
@[simp] theorem setQuit_quit (s : State) : s.setQuit.quit = true := rfl
@[simp] theorem setQuit_phase (s : State) : s.setQuit.phase = s.phase := rfl
@[simp] theorem setQuit_evq (s : State) : s.setQuit.evq = s.evq := rfl
@[simp] theorem setQuit_cpu (s : State) : s.setQuit.cpu = s.cpu := rfl
@[simp] theorem setQuit_clock (s : State) : s.setQuit.clock = s.clock := rfl
@[simp] theorem setQuit_launch (s : State) : s.setQuit.launch = s.launch := rfl
@[simp] theorem setQuit_exitStatus (s : State) : s.setQuit.exitStatus = s.exitStatus := rfl
@[simp] theorem setQuit_failure (s : State) : s.setQuit.failure = s.failure := rfl
@[simp] theorem setQuit_transport (s : State) : s.setQuit.transport = s.transport := rfl
@[simp] theorem setQuit_arrivals (s : State) : s.setQuit.arrivals = s.arrivals := rfl
@[simp] theorem setQuit_launches (s : State) : s.setQuit.launches = s.launches := rfl
@[simp] theorem setQuit_draws (s : State) : s.setQuit.draws = s.draws := rfl

/-! ### storeByte -/

@[simp] theorem storeByte_mem (s : State) (a : Addr) (v : Byte) : (s.storeByte a v).mem = memWrite s.launch s.mem a.toNat v := rfl
@[simp] theorem storeByte_kbd (s : State) (a : Addr) (v : Byte) : (s.storeByte a v).kbd = s.kbd := rfl
@[simp] theorem storeByte_atlas (s : State) (a : Addr) (v : Byte) : (s.storeByte a v).atlas = s.atlas := rfl
@[simp] theorem storeByte_fb (s : State) (a : Addr) (v : Byte) : (s.storeByte a v).fb = s.fb := rfl
@[simp] theorem storeByte_quit (s : State) (a : Addr) (v : Byte) : (s.storeByte a v).quit = s.quit := rfl
@[simp] theorem storeByte_phase (s : State) (a : Addr) (v : Byte) : (s.storeByte a v).phase = s.phase := rfl
@[simp] theorem storeByte_evq (s : State) (a : Addr) (v : Byte) : (s.storeByte a v).evq = s.evq := rfl
@[simp] theorem storeByte_cpu (s : State) (a : Addr) (v : Byte) : (s.storeByte a v).cpu = s.cpu := rfl
@[simp] theorem storeByte_clock (s : State) (a : Addr) (v : Byte) : (s.storeByte a v).clock = s.clock := rfl
@[simp] theorem storeByte_launch (s : State) (a : Addr) (v : Byte) : (s.storeByte a v).launch = s.launch := rfl
@[simp] theorem storeByte_exitStatus (s : State) (a : Addr) (v : Byte) : (s.storeByte a v).exitStatus = s.exitStatus := rfl
@[simp] theorem storeByte_failure (s : State) (a : Addr) (v : Byte) : (s.storeByte a v).failure = s.failure := rfl
@[simp] theorem storeByte_transport (s : State) (a : Addr) (v : Byte) : (s.storeByte a v).transport = s.transport := rfl
@[simp] theorem storeByte_arrivals (s : State) (a : Addr) (v : Byte) : (s.storeByte a v).arrivals = s.arrivals := rfl
@[simp] theorem storeByte_launches (s : State) (a : Addr) (v : Byte) : (s.storeByte a v).launches = s.launches := rfl
@[simp] theorem storeByte_draws (s : State) (a : Addr) (v : Byte) : (s.storeByte a v).draws = s.draws := rfl

/-! ### pressKey -/

@[simp] theorem pressKey_mem (s : State) (k : KeyId) : (s.pressKey k).mem = s.mem := rfl
@[simp] theorem pressKey_kbd (s : State) (k : KeyId) : (s.pressKey k).kbd = (drivenBits s.launch.cfg k).foldl pressBit s.kbd := rfl
@[simp] theorem pressKey_atlas (s : State) (k : KeyId) : (s.pressKey k).atlas = s.atlas := rfl
@[simp] theorem pressKey_fb (s : State) (k : KeyId) : (s.pressKey k).fb = s.fb := rfl
@[simp] theorem pressKey_quit (s : State) (k : KeyId) : (s.pressKey k).quit = s.quit := rfl
@[simp] theorem pressKey_phase (s : State) (k : KeyId) : (s.pressKey k).phase = s.phase := rfl
@[simp] theorem pressKey_evq (s : State) (k : KeyId) : (s.pressKey k).evq = s.evq := rfl
@[simp] theorem pressKey_cpu (s : State) (k : KeyId) : (s.pressKey k).cpu = s.cpu := rfl
@[simp] theorem pressKey_clock (s : State) (k : KeyId) : (s.pressKey k).clock = s.clock := rfl
@[simp] theorem pressKey_launch (s : State) (k : KeyId) : (s.pressKey k).launch = s.launch := rfl
@[simp] theorem pressKey_exitStatus (s : State) (k : KeyId) : (s.pressKey k).exitStatus = s.exitStatus := rfl
@[simp] theorem pressKey_failure (s : State) (k : KeyId) : (s.pressKey k).failure = s.failure := rfl
@[simp] theorem pressKey_transport (s : State) (k : KeyId) : (s.pressKey k).transport = s.transport := rfl
@[simp] theorem pressKey_arrivals (s : State) (k : KeyId) : (s.pressKey k).arrivals = s.arrivals := rfl
@[simp] theorem pressKey_launches (s : State) (k : KeyId) : (s.pressKey k).launches = s.launches := rfl
@[simp] theorem pressKey_draws (s : State) (k : KeyId) : (s.pressKey k).draws = s.draws := rfl

/-! ### releaseKey -/

@[simp] theorem releaseKey_mem (s : State) (k : KeyId) : (s.releaseKey k).mem = s.mem := rfl
@[simp] theorem releaseKey_kbd (s : State) (k : KeyId) : (s.releaseKey k).kbd = (drivenBits s.launch.cfg k).foldl releaseBit s.kbd := rfl
@[simp] theorem releaseKey_atlas (s : State) (k : KeyId) : (s.releaseKey k).atlas = s.atlas := rfl
@[simp] theorem releaseKey_fb (s : State) (k : KeyId) : (s.releaseKey k).fb = s.fb := rfl
@[simp] theorem releaseKey_quit (s : State) (k : KeyId) : (s.releaseKey k).quit = s.quit := rfl
@[simp] theorem releaseKey_phase (s : State) (k : KeyId) : (s.releaseKey k).phase = s.phase := rfl
@[simp] theorem releaseKey_evq (s : State) (k : KeyId) : (s.releaseKey k).evq = s.evq := rfl
@[simp] theorem releaseKey_cpu (s : State) (k : KeyId) : (s.releaseKey k).cpu = s.cpu := rfl
@[simp] theorem releaseKey_clock (s : State) (k : KeyId) : (s.releaseKey k).clock = s.clock := rfl
@[simp] theorem releaseKey_launch (s : State) (k : KeyId) : (s.releaseKey k).launch = s.launch := rfl
@[simp] theorem releaseKey_exitStatus (s : State) (k : KeyId) : (s.releaseKey k).exitStatus = s.exitStatus := rfl
@[simp] theorem releaseKey_failure (s : State) (k : KeyId) : (s.releaseKey k).failure = s.failure := rfl
@[simp] theorem releaseKey_transport (s : State) (k : KeyId) : (s.releaseKey k).transport = s.transport := rfl
@[simp] theorem releaseKey_arrivals (s : State) (k : KeyId) : (s.releaseKey k).arrivals = s.arrivals := rfl
@[simp] theorem releaseKey_launches (s : State) (k : KeyId) : (s.releaseKey k).launches = s.launches := rfl
@[simp] theorem releaseKey_draws (s : State) (k : KeyId) : (s.releaseKey k).draws = s.draws := rfl

/-! ### returnByte -/

@[simp] theorem returnByte_mem (s : State) (b : Byte) : (s.returnByte b).mem = s.mem := rfl
@[simp] theorem returnByte_kbd (s : State) (b : Byte) : (s.returnByte b).kbd = s.kbd := rfl
@[simp] theorem returnByte_atlas (s : State) (b : Byte) : (s.returnByte b).atlas = s.atlas := rfl
@[simp] theorem returnByte_fb (s : State) (b : Byte) : (s.returnByte b).fb = s.fb := rfl
@[simp] theorem returnByte_quit (s : State) (b : Byte) : (s.returnByte b).quit = s.quit := rfl
@[simp] theorem returnByte_phase (s : State) (b : Byte) : (s.returnByte b).phase = s.phase := rfl
@[simp] theorem returnByte_evq (s : State) (b : Byte) : (s.returnByte b).evq = s.evq := rfl
@[simp] theorem returnByte_cpu (s : State) (b : Byte) : (s.returnByte b).cpu = { s.cpu with results := b :: s.cpu.results } := rfl
@[simp] theorem returnByte_clock (s : State) (b : Byte) : (s.returnByte b).clock = s.clock := rfl
@[simp] theorem returnByte_launch (s : State) (b : Byte) : (s.returnByte b).launch = s.launch := rfl
@[simp] theorem returnByte_exitStatus (s : State) (b : Byte) : (s.returnByte b).exitStatus = s.exitStatus := rfl
@[simp] theorem returnByte_failure (s : State) (b : Byte) : (s.returnByte b).failure = s.failure := rfl
@[simp] theorem returnByte_transport (s : State) (b : Byte) : (s.returnByte b).transport = s.transport := rfl
@[simp] theorem returnByte_arrivals (s : State) (b : Byte) : (s.returnByte b).arrivals = s.arrivals := rfl
@[simp] theorem returnByte_launches (s : State) (b : Byte) : (s.returnByte b).launches = s.launches := rfl
@[simp] theorem returnByte_draws (s : State) (b : Byte) : (s.returnByte b).draws = s.draws := rfl

/-! ### startTimer -/

@[simp] theorem startTimer_mem (s : State) : s.startTimer.mem = s.mem := rfl
@[simp] theorem startTimer_kbd (s : State) : s.startTimer.kbd = s.kbd := rfl
@[simp] theorem startTimer_atlas (s : State) : s.startTimer.atlas = s.atlas := rfl
@[simp] theorem startTimer_fb (s : State) : s.startTimer.fb = s.fb := rfl
@[simp] theorem startTimer_quit (s : State) : s.startTimer.quit = s.quit := rfl
@[simp] theorem startTimer_phase (s : State) : s.startTimer.phase = s.phase := rfl
@[simp] theorem startTimer_evq (s : State) : s.startTimer.evq = s.evq := rfl
@[simp] theorem startTimer_cpu (s : State) : s.startTimer.cpu = s.cpu := rfl
@[simp] theorem startTimer_clock (s : State) : s.startTimer.clock = { s.clock with t0 := s.clock.now } := rfl
@[simp] theorem startTimer_launch (s : State) : s.startTimer.launch = s.launch := rfl
@[simp] theorem startTimer_exitStatus (s : State) : s.startTimer.exitStatus = s.exitStatus := rfl
@[simp] theorem startTimer_failure (s : State) : s.startTimer.failure = s.failure := rfl
@[simp] theorem startTimer_transport (s : State) : s.startTimer.transport = s.transport := rfl
@[simp] theorem startTimer_arrivals (s : State) : s.startTimer.arrivals = s.arrivals := rfl
@[simp] theorem startTimer_launches (s : State) : s.startTimer.launches = s.launches := rfl
@[simp] theorem startTimer_draws (s : State) : s.startTimer.draws = s.draws := rfl

/-! ### spendTime -/

@[simp] theorem spendTime_mem (s : State) : s.spendTime.mem = s.mem := rfl
@[simp] theorem spendTime_kbd (s : State) : s.spendTime.kbd = s.kbd := rfl
@[simp] theorem spendTime_atlas (s : State) : s.spendTime.atlas = s.atlas := rfl
@[simp] theorem spendTime_fb (s : State) : s.spendTime.fb = s.fb := rfl
@[simp] theorem spendTime_quit (s : State) : s.spendTime.quit = s.quit := rfl
@[simp] theorem spendTime_phase (s : State) : s.spendTime.phase = s.phase := rfl
@[simp] theorem spendTime_evq (s : State) : s.spendTime.evq = s.evq := rfl
@[simp] theorem spendTime_cpu (s : State) : s.spendTime.cpu = s.cpu := rfl
@[simp] theorem spendTime_clock (s : State) : s.spendTime.clock = { s.clock with now := s.clock.now + s.clock.durations.headD 0, durations := s.clock.durations.tail } := rfl
@[simp] theorem spendTime_launch (s : State) : s.spendTime.launch = s.launch := rfl
@[simp] theorem spendTime_exitStatus (s : State) : s.spendTime.exitStatus = s.exitStatus := rfl
@[simp] theorem spendTime_failure (s : State) : s.spendTime.failure = s.failure := rfl
@[simp] theorem spendTime_transport (s : State) : s.spendTime.transport = s.transport := rfl
@[simp] theorem spendTime_arrivals (s : State) : s.spendTime.arrivals = s.arrivals := rfl
@[simp] theorem spendTime_launches (s : State) : s.spendTime.launches = s.launches := rfl
@[simp] theorem spendTime_draws (s : State) : s.spendTime.draws = s.draws := rfl

/-! ### deliver -/

@[simp] theorem deliver_mem (s : State) : s.deliver.mem = s.mem := rfl
@[simp] theorem deliver_kbd (s : State) : s.deliver.kbd = s.kbd := rfl
@[simp] theorem deliver_atlas (s : State) : s.deliver.atlas = s.atlas := rfl
@[simp] theorem deliver_fb (s : State) : s.deliver.fb = s.fb := rfl
@[simp] theorem deliver_quit (s : State) : s.deliver.quit = s.quit := rfl
@[simp] theorem deliver_phase (s : State) : s.deliver.phase = s.phase := rfl
@[simp] theorem deliver_evq (s : State) : s.deliver.evq = s.evq ++ s.arrivals.headD [] := rfl
@[simp] theorem deliver_cpu (s : State) : s.deliver.cpu = s.cpu := rfl
@[simp] theorem deliver_clock (s : State) : s.deliver.clock = s.clock := rfl
@[simp] theorem deliver_launch (s : State) : s.deliver.launch = s.launch := rfl
@[simp] theorem deliver_exitStatus (s : State) : s.deliver.exitStatus = s.exitStatus := rfl
@[simp] theorem deliver_failure (s : State) : s.deliver.failure = s.failure := rfl
@[simp] theorem deliver_transport (s : State) : s.deliver.transport = s.transport := rfl
@[simp] theorem deliver_arrivals (s : State) : s.deliver.arrivals = s.arrivals.tail := rfl
@[simp] theorem deliver_launches (s : State) : s.deliver.launches = s.launches := rfl
@[simp] theorem deliver_draws (s : State) : s.deliver.draws = s.draws := rfl

/-! ### redraw -/

@[simp] theorem redraw_mem (s : State) : s.redraw.mem = s.mem := rfl
@[simp] theorem redraw_kbd (s : State) : s.redraw.kbd = s.kbd := rfl
@[simp] theorem redraw_atlas (s : State) : s.redraw.atlas = s.atlas := rfl
@[simp] theorem redraw_fb (s : State) : s.redraw.fb = some (displayFrame s) := rfl
@[simp] theorem redraw_quit (s : State) : s.redraw.quit = s.quit := rfl
@[simp] theorem redraw_phase (s : State) : s.redraw.phase = s.phase := rfl
@[simp] theorem redraw_evq (s : State) : s.redraw.evq = s.evq := rfl
@[simp] theorem redraw_cpu (s : State) : s.redraw.cpu = s.cpu := rfl
@[simp] theorem redraw_clock (s : State) : s.redraw.clock = s.clock := rfl
@[simp] theorem redraw_launch (s : State) : s.redraw.launch = s.launch := rfl
@[simp] theorem redraw_exitStatus (s : State) : s.redraw.exitStatus = s.exitStatus := rfl
@[simp] theorem redraw_failure (s : State) : s.redraw.failure = s.failure := rfl
@[simp] theorem redraw_transport (s : State) : s.redraw.transport = s.transport := rfl
@[simp] theorem redraw_arrivals (s : State) : s.redraw.arrivals = s.arrivals := rfl
@[simp] theorem redraw_launches (s : State) : s.redraw.launches = s.launches := rfl
@[simp] theorem redraw_draws (s : State) : s.redraw.draws = s.draws := rfl

/-! ### raiseFatalInit -/

@[simp] theorem raiseFatalInit_mem (s : State) (c : FatalInit) : (s.raiseFatalInit c).mem = undefinedMemory s.launch s.draws := rfl
@[simp] theorem raiseFatalInit_kbd (s : State) (c : FatalInit) : (s.raiseFatalInit c).kbd = Config.undefinedMatrix s.draws := rfl
@[simp] theorem raiseFatalInit_atlas (s : State) (c : FatalInit) : (s.raiseFatalInit c).atlas = Config.undefinedAtlas s.draws := rfl
@[simp] theorem raiseFatalInit_fb (s : State) (c : FatalInit) : (s.raiseFatalInit c).fb = none := rfl
@[simp] theorem raiseFatalInit_quit (s : State) (c : FatalInit) : (s.raiseFatalInit c).quit = s.quit := rfl
@[simp] theorem raiseFatalInit_phase (s : State) (c : FatalInit) : (s.raiseFatalInit c).phase = .failed := rfl
@[simp] theorem raiseFatalInit_evq (s : State) (c : FatalInit) : (s.raiseFatalInit c).evq = s.evq := rfl
@[simp] theorem raiseFatalInit_cpu (s : State) (c : FatalInit) : (s.raiseFatalInit c).cpu = s.cpu := rfl
@[simp] theorem raiseFatalInit_clock (s : State) (c : FatalInit) : (s.raiseFatalInit c).clock = s.clock := rfl
@[simp] theorem raiseFatalInit_launch (s : State) (c : FatalInit) : (s.raiseFatalInit c).launch = s.launch := rfl
@[simp] theorem raiseFatalInit_exitStatus (s : State) (c : FatalInit) : (s.raiseFatalInit c).exitStatus = some s.launch.cfg.exitFail := rfl
@[simp] theorem raiseFatalInit_failure (s : State) (c : FatalInit) : (s.raiseFatalInit c).failure = some c := rfl
@[simp] theorem raiseFatalInit_transport (s : State) (c : FatalInit) : (s.raiseFatalInit c).transport = s.transport := rfl
@[simp] theorem raiseFatalInit_arrivals (s : State) (c : FatalInit) : (s.raiseFatalInit c).arrivals = s.arrivals := rfl
@[simp] theorem raiseFatalInit_launches (s : State) (c : FatalInit) : (s.raiseFatalInit c).launches = s.launches := rfl
@[simp] theorem raiseFatalInit_draws (s : State) (c : FatalInit) : (s.raiseFatalInit c).draws = s.draws + 1 := rfl

/-! ### endStep -/

@[simp] theorem endStep_mem (s : State) : s.endStep.mem = s.mem := rfl
@[simp] theorem endStep_kbd (s : State) : s.endStep.kbd = s.kbd := rfl
@[simp] theorem endStep_atlas (s : State) : s.endStep.atlas = s.atlas := rfl
@[simp] theorem endStep_fb (s : State) : s.endStep.fb = s.fb := rfl
@[simp] theorem endStep_quit (s : State) : s.endStep.quit = s.quit := rfl
@[simp] theorem endStep_phase (s : State) : s.endStep.phase = s.phase := rfl
@[simp] theorem endStep_evq (s : State) : s.endStep.evq = s.evq := rfl
@[simp] theorem endStep_clock (s : State) : s.endStep.clock = s.clock := rfl
@[simp] theorem endStep_launch (s : State) : s.endStep.launch = s.launch := rfl
@[simp] theorem endStep_exitStatus (s : State) : s.endStep.exitStatus = s.exitStatus := rfl
@[simp] theorem endStep_failure (s : State) : s.endStep.failure = s.failure := rfl
@[simp] theorem endStep_transport (s : State) : s.endStep.transport = s.transport := rfl
@[simp] theorem endStep_arrivals (s : State) : s.endStep.arrivals = s.arrivals := rfl
@[simp] theorem endStep_launches (s : State) : s.endStep.launches = s.launches := rfl
@[simp] theorem endStep_draws (s : State) : s.endStep.draws = s.draws := rfl
@[simp] theorem endStep_cpu_cyc (s : State) : s.endStep.cpu.cyc = s.cpu.cyc + s.cpu.move.cycles := rfl
@[simp] theorem endStep_cpu_state (s : State) : s.endStep.cpu.state = s.cpu.move.next := rfl
@[simp] theorem endStep_cpu_moves (s : State) : s.endStep.cpu.moves = s.cpu.moves := rfl
@[simp] theorem endStep_cpu_idle (s : State) : s.endStep.cpu.idle = s.cpu.idle := rfl
@[simp] theorem endStep_cpu_opsPerStep (s : State) : s.endStep.cpu.opsPerStep = s.cpu.opsPerStep := rfl
@[simp] theorem endStep_cpu_results (s : State) : s.endStep.cpu.results = s.cpu.results := rfl

/-! ### beginSession -/

@[simp] theorem beginSession_mem (s : State) : s.beginSession.mem = [] := rfl
@[simp] theorem beginSession_kbd (s : State) : s.beginSession.kbd = Vector.replicate Config.kbdSlots Config.releasedRow := rfl
@[simp] theorem beginSession_atlas (s : State) : s.beginSession.atlas = s.atlas := rfl
@[simp] theorem beginSession_fb (s : State) : s.beginSession.fb = none := rfl
@[simp] theorem beginSession_quit (s : State) : s.beginSession.quit = false := rfl
@[simp] theorem beginSession_phase (s : State) : s.beginSession.phase = .init := rfl
@[simp] theorem beginSession_evq (s : State) : s.beginSession.evq = (s.launches.headD s.launch).pending := rfl
@[simp] theorem beginSession_cpu (s : State) : s.beginSession.cpu = (s.launches.headD s.launch).cpu := rfl
@[simp] theorem beginSession_clock (s : State) : s.beginSession.clock = (s.launches.headD s.launch).clock := rfl
@[simp] theorem beginSession_launch (s : State) : s.beginSession.launch = s.launches.headD s.launch := rfl
@[simp] theorem beginSession_exitStatus (s : State) : s.beginSession.exitStatus = none := rfl
@[simp] theorem beginSession_failure (s : State) : s.beginSession.failure = none := rfl
@[simp] theorem beginSession_transport (s : State) : s.beginSession.transport = s.transport := rfl
@[simp] theorem beginSession_arrivals (s : State) : s.beginSession.arrivals = s.arrivals := rfl
@[simp] theorem beginSession_launches (s : State) : s.beginSession.launches = s.launches.tail := rfl
@[simp] theorem beginSession_draws (s : State) : s.beginSession.draws = s.draws := rfl

/-! ### busWrite -/

@[simp] theorem busWrite_kbd (s : State) (a : Addr) (v : Byte) : (s.busWrite a v).kbd = s.kbd := by unfold State.busWrite; split <;> rfl
@[simp] theorem busWrite_atlas (s : State) (a : Addr) (v : Byte) : (s.busWrite a v).atlas = s.atlas := by unfold State.busWrite; split <;> rfl
@[simp] theorem busWrite_fb (s : State) (a : Addr) (v : Byte) : (s.busWrite a v).fb = s.fb := by unfold State.busWrite; split <;> rfl
@[simp] theorem busWrite_quit (s : State) (a : Addr) (v : Byte) : (s.busWrite a v).quit = s.quit := by unfold State.busWrite; split <;> rfl
@[simp] theorem busWrite_phase (s : State) (a : Addr) (v : Byte) : (s.busWrite a v).phase = s.phase := by unfold State.busWrite; split <;> rfl
@[simp] theorem busWrite_evq (s : State) (a : Addr) (v : Byte) : (s.busWrite a v).evq = s.evq := by unfold State.busWrite; split <;> rfl
@[simp] theorem busWrite_cpu (s : State) (a : Addr) (v : Byte) : (s.busWrite a v).cpu = s.cpu := by unfold State.busWrite; split <;> rfl
@[simp] theorem busWrite_clock (s : State) (a : Addr) (v : Byte) : (s.busWrite a v).clock = s.clock := by unfold State.busWrite; split <;> rfl
@[simp] theorem busWrite_launch (s : State) (a : Addr) (v : Byte) : (s.busWrite a v).launch = s.launch := by unfold State.busWrite; split <;> rfl
@[simp] theorem busWrite_exitStatus (s : State) (a : Addr) (v : Byte) : (s.busWrite a v).exitStatus = s.exitStatus := by unfold State.busWrite; split <;> rfl
@[simp] theorem busWrite_failure (s : State) (a : Addr) (v : Byte) : (s.busWrite a v).failure = s.failure := by unfold State.busWrite; split <;> rfl
@[simp] theorem busWrite_transport (s : State) (a : Addr) (v : Byte) : (s.busWrite a v).transport = s.transport := by unfold State.busWrite; split <;> rfl
@[simp] theorem busWrite_arrivals (s : State) (a : Addr) (v : Byte) : (s.busWrite a v).arrivals = s.arrivals := by unfold State.busWrite; split <;> rfl
@[simp] theorem busWrite_launches (s : State) (a : Addr) (v : Byte) : (s.busWrite a v).launches = s.launches := by unfold State.busWrite; split <;> rfl
@[simp] theorem busWrite_draws (s : State) (a : Addr) (v : Byte) : (s.busWrite a v).draws = s.draws := by unfold State.busWrite; split <;> rfl

/-! ### sleepRemainder -/

@[simp] theorem sleepRemainder_mem (s : State) : s.sleepRemainder.mem = s.mem := by unfold State.sleepRemainder; dsimp only; split <;> rfl
@[simp] theorem sleepRemainder_kbd (s : State) : s.sleepRemainder.kbd = s.kbd := by unfold State.sleepRemainder; dsimp only; split <;> rfl
@[simp] theorem sleepRemainder_atlas (s : State) : s.sleepRemainder.atlas = s.atlas := by unfold State.sleepRemainder; dsimp only; split <;> rfl
@[simp] theorem sleepRemainder_fb (s : State) : s.sleepRemainder.fb = s.fb := by unfold State.sleepRemainder; dsimp only; split <;> rfl
@[simp] theorem sleepRemainder_quit (s : State) : s.sleepRemainder.quit = s.quit := by unfold State.sleepRemainder; dsimp only; split <;> rfl
@[simp] theorem sleepRemainder_phase (s : State) : s.sleepRemainder.phase = s.phase := by unfold State.sleepRemainder; dsimp only; split <;> rfl
@[simp] theorem sleepRemainder_evq (s : State) : s.sleepRemainder.evq = s.evq := by unfold State.sleepRemainder; dsimp only; split <;> rfl
@[simp] theorem sleepRemainder_cpu (s : State) : s.sleepRemainder.cpu = s.cpu := by unfold State.sleepRemainder; dsimp only; split <;> rfl
@[simp] theorem sleepRemainder_launch (s : State) : s.sleepRemainder.launch = s.launch := by unfold State.sleepRemainder; dsimp only; split <;> rfl
@[simp] theorem sleepRemainder_exitStatus (s : State) : s.sleepRemainder.exitStatus = s.exitStatus := by unfold State.sleepRemainder; dsimp only; split <;> rfl
@[simp] theorem sleepRemainder_failure (s : State) : s.sleepRemainder.failure = s.failure := by unfold State.sleepRemainder; dsimp only; split <;> rfl
@[simp] theorem sleepRemainder_transport (s : State) : s.sleepRemainder.transport = s.transport := by unfold State.sleepRemainder; dsimp only; split <;> rfl
@[simp] theorem sleepRemainder_arrivals (s : State) : s.sleepRemainder.arrivals = s.arrivals := by unfold State.sleepRemainder; dsimp only; split <;> rfl
@[simp] theorem sleepRemainder_launches (s : State) : s.sleepRemainder.launches = s.launches := by unfold State.sleepRemainder; dsimp only; split <;> rfl
@[simp] theorem sleepRemainder_draws (s : State) : s.sleepRemainder.draws = s.draws := by unfold State.sleepRemainder; dsimp only; split <;> rfl

/-! ### displayPass -/

@[simp] theorem displayPass_mem (s : State) : s.displayPass.mem = s.mem := by unfold State.displayPass; split <;> rfl
@[simp] theorem displayPass_kbd (s : State) : s.displayPass.kbd = s.kbd := by unfold State.displayPass; split <;> rfl
@[simp] theorem displayPass_atlas (s : State) : s.displayPass.atlas = s.atlas := by unfold State.displayPass; split <;> rfl
@[simp] theorem displayPass_quit (s : State) : s.displayPass.quit = s.quit := by unfold State.displayPass; split <;> rfl
@[simp] theorem displayPass_evq (s : State) : s.displayPass.evq = s.evq := by unfold State.displayPass; split <;> rfl
@[simp] theorem displayPass_cpu (s : State) : s.displayPass.cpu = s.cpu := by unfold State.displayPass; split <;> rfl
@[simp] theorem displayPass_launch (s : State) : s.displayPass.launch = s.launch := by unfold State.displayPass; split <;> rfl
@[simp] theorem displayPass_exitStatus (s : State) : s.displayPass.exitStatus = s.exitStatus := by unfold State.displayPass; split <;> rfl
@[simp] theorem displayPass_failure (s : State) : s.displayPass.failure = s.failure := by unfold State.displayPass; split <;> rfl
@[simp] theorem displayPass_transport (s : State) : s.displayPass.transport = s.transport := by unfold State.displayPass; split <;> rfl
@[simp] theorem displayPass_arrivals (s : State) : s.displayPass.arrivals = s.arrivals := by unfold State.displayPass; split <;> rfl
@[simp] theorem displayPass_launches (s : State) : s.displayPass.launches = s.launches := by unfold State.displayPass; split <;> rfl
@[simp] theorem displayPass_draws (s : State) : s.displayPass.draws = s.draws := by unfold State.displayPass; split <;> rfl

/-! ### enterLoop -/

@[simp] theorem enterLoop_mem (s : State) : s.enterLoop.mem = s.mem := by unfold State.enterLoop; split <;> rfl
@[simp] theorem enterLoop_kbd (s : State) : s.enterLoop.kbd = s.kbd := by unfold State.enterLoop; split <;> rfl
@[simp] theorem enterLoop_atlas (s : State) : s.enterLoop.atlas = s.atlas := by unfold State.enterLoop; split <;> rfl
@[simp] theorem enterLoop_fb (s : State) : s.enterLoop.fb = s.fb := by unfold State.enterLoop; split <;> rfl
@[simp] theorem enterLoop_quit (s : State) : s.enterLoop.quit = s.quit := by unfold State.enterLoop; split <;> rfl
@[simp] theorem enterLoop_evq (s : State) : s.enterLoop.evq = s.evq := by unfold State.enterLoop; split <;> rfl
@[simp] theorem enterLoop_cpu (s : State) : s.enterLoop.cpu = s.cpu := by unfold State.enterLoop; split <;> rfl
@[simp] theorem enterLoop_clock (s : State) : s.enterLoop.clock = s.clock := by unfold State.enterLoop; split <;> rfl
@[simp] theorem enterLoop_launch (s : State) : s.enterLoop.launch = s.launch := by unfold State.enterLoop; split <;> rfl
@[simp] theorem enterLoop_exitStatus (s : State) : s.enterLoop.exitStatus = s.exitStatus := by unfold State.enterLoop; split <;> rfl
@[simp] theorem enterLoop_failure (s : State) : s.enterLoop.failure = s.failure := by unfold State.enterLoop; split <;> rfl
@[simp] theorem enterLoop_transport (s : State) : s.enterLoop.transport = s.transport := by unfold State.enterLoop; split <;> rfl
@[simp] theorem enterLoop_arrivals (s : State) : s.enterLoop.arrivals = s.arrivals := by unfold State.enterLoop; split <;> rfl
@[simp] theorem enterLoop_launches (s : State) : s.enterLoop.launches = s.launches := by unfold State.enterLoop; split <;> rfl
@[simp] theorem enterLoop_draws (s : State) : s.enterLoop.draws = s.draws := by unfold State.enterLoop; split <;> rfl

/-! ### paceFrame -/

@[simp] theorem paceFrame_mem (s : State) : s.paceFrame.mem = s.mem := by simp [State.paceFrame]
@[simp] theorem paceFrame_kbd (s : State) : s.paceFrame.kbd = s.kbd := by simp [State.paceFrame]
@[simp] theorem paceFrame_atlas (s : State) : s.paceFrame.atlas = s.atlas := by simp [State.paceFrame]
@[simp] theorem paceFrame_fb (s : State) : s.paceFrame.fb = s.fb := by simp [State.paceFrame]
@[simp] theorem paceFrame_quit (s : State) : s.paceFrame.quit = s.quit := by simp [State.paceFrame]
@[simp] theorem paceFrame_evq (s : State) : s.paceFrame.evq = s.evq := by simp [State.paceFrame]
@[simp] theorem paceFrame_cpu (s : State) : s.paceFrame.cpu = s.cpu := by simp [State.paceFrame]
@[simp] theorem paceFrame_launch (s : State) : s.paceFrame.launch = s.launch := by simp [State.paceFrame]
@[simp] theorem paceFrame_exitStatus (s : State) : s.paceFrame.exitStatus = s.exitStatus := by simp [State.paceFrame]
@[simp] theorem paceFrame_failure (s : State) : s.paceFrame.failure = s.failure := by simp [State.paceFrame]
@[simp] theorem paceFrame_transport (s : State) : s.paceFrame.transport = s.transport := by simp [State.paceFrame]
@[simp] theorem paceFrame_arrivals (s : State) : s.paceFrame.arrivals = s.arrivals := by simp [State.paceFrame]
@[simp] theorem paceFrame_launches (s : State) : s.paceFrame.launches = s.launches := by simp [State.paceFrame]
@[simp] theorem paceFrame_draws (s : State) : s.paceFrame.draws = s.draws := by simp [State.paceFrame]
@[simp] theorem paceFrame_phase (s : State) : s.paceFrame.phase = phaseAfterPace s.quit := rfl
@[simp] theorem paceFrame_clock (s : State) : s.paceFrame.clock = s.sleepRemainder.clock := rfl

end Sys2Proof.Machine
end

