-- ==== Sys2Proof/Laws/Cpu.lean ====
section
/-! SUPPORT. The bus operations, the CPU step and the RUNCPU loop: what they leave unchanged, how the cycle counter grows,
and that the loop's fuel decides whether it ends. -/
namespace Sys2Proof.Machine

/-- `t` differs from `s` at most in memory and in the CPU core. -/
structure SameBlock (s t : State) : Prop where
  kbd : t.kbd = s.kbd
  atlas : t.atlas = s.atlas
  fb : t.fb = s.fb
  quit : t.quit = s.quit
  phase : t.phase = s.phase
  evq : t.evq = s.evq
  clock : t.clock = s.clock
  launch : t.launch = s.launch
  exitStatus : t.exitStatus = s.exitStatus
  failure : t.failure = s.failure
  transport : t.transport = s.transport
  arrivals : t.arrivals = s.arrivals
  launches : t.launches = s.launches
  draws : t.draws = s.draws

theorem SameBlock.refl (s : State) : SameBlock s s := by constructor <;> rfl

theorem SameBlock.trans {s t u : State} (h : SameBlock s t) (h' : SameBlock t u) : SameBlock s u := by
  constructor
  · exact h'.kbd.trans h.kbd
  · exact h'.atlas.trans h.atlas
  · exact h'.fb.trans h.fb
  · exact h'.quit.trans h.quit
  · exact h'.phase.trans h.phase
  · exact h'.evq.trans h.evq
  · exact h'.clock.trans h.clock
  · exact h'.launch.trans h.launch
  · exact h'.exitStatus.trans h.exitStatus
  · exact h'.failure.trans h.failure
  · exact h'.transport.trans h.transport
  · exact h'.arrivals.trans h.arrivals
  · exact h'.launches.trans h.launches
  · exact h'.draws.trans h.draws

theorem SameBlock.eq {s t : State} (h : SameBlock s t) : { t with mem := s.mem, cpu := s.cpu } = s := by
  cases s
  cases t
  obtain ⟨h1, h2, h3, h4, h5, h6, h7, h8, h9, h10, h11, h12, h13, h14⟩ := h
  dsimp only at *
  subst h1 h2 h3 h4 h5 h6 h7 h8 h9 h10 h11 h12 h13 h14
  rfl

theorem SameBlock.setCpu (s : State) (c : CpuCore) : SameBlock s { s with cpu := c } := by constructor <;> rfl

theorem SameBlock.busWrite (s : State) (a : Addr) (v : Byte) : SameBlock s (s.busWrite a v) := by
  constructor <;> simp

/-- A bus operation changes at most memory and the CPU core's results (40_bus_adapter R110). -/
theorem SameBlock.busOp (s : State) (o : BusOp) : SameBlock s (s.busOp o) := by
  cases o with
  | read a => exact .setCpu s _
  | write a v => exact .busWrite s a v
  | portIn p r =>
    simp only [State.busOp]
    split
    · exact .setCpu s _
    · exact .setCpu s _
  | portOut p v => exact .refl s

theorem SameBlock.issue (s : State) (o : BusOp) : SameBlock s (s.issue o) :=
  (SameBlock.busOp s o).trans (.setCpu _ _)

/-- A property that every bus operation the CPU core issues and the end of the step keep holds after a step. -/
theorem stepWithin_induct {P : State → Prop} (hissue : ∀ s o, P s → P (s.issue o)) (hend : ∀ s, P s → P s.endStep)
    (n : Nat) {s : State} (h : P s) : P (s.stepWithin n) := by
  induction n generalizing s with
  | zero => exact hend s h
  | succ n ih =>
    unfold State.stepWithin
    split
    · exact hend s h
    · next o _ => exact ih (hissue s o h)

theorem SameBlock.cpuStep (s : State) : SameBlock s s.cpuStep :=
  stepWithin_induct (P := SameBlock s) (fun t o h => h.trans (.issue t o)) (fun t h => h.trans (.setCpu t _)) _ (.refl s)

/-- A property every CPU step keeps holds after the loop. -/
theorem cpuLoop_induct {P : State → Prop} (hstep : ∀ s, P s → P s.cpuStep) (c0 fuel : Nat) {s : State} (h : P s) :
    P (State.cpuLoop c0 fuel s) := by
  induction fuel generalizing s with
  | zero => exact h
  | succ n ih =>
    unfold State.cpuLoop
    split
    · exact ih (hstep s h)
    · exact h

/-- A property every bus operation keeps, and that does not look at the CPU core, holds after a CPU step. -/
theorem cpuStep_induct {P : State → Prop} (hop : ∀ s o, P s → P (s.busOp o))
    (hcpu : ∀ s c, P s → P { s with cpu := c }) {s : State} (h : P s) : P s.cpuStep :=
  stepWithin_induct (P := P) (fun t o ht => hcpu _ _ (hop t o ht)) (fun _ ht => hcpu _ _ ht) _ h

theorem SameBlock.cpuLoop (c0 fuel : Nat) (s : State) : SameBlock s (State.cpuLoop c0 fuel s) :=
  cpuLoop_induct (P := SameBlock s) (fun t h => h.trans (.cpuStep t)) c0 fuel (.refl s)

theorem SameBlock.iterate_cpuStep (n : Nat) (s : State) : SameBlock s (State.cpuStep^[n] s) := by
  induction n generalizing s with
  | zero => exact .refl s
  | succ n ih => exact (SameBlock.cpuStep s).trans (ih _)

/-- No bus operation writes below the boundary (20_memory R59). -/
theorem readByte_busOp_protected (s : State) (o : BusOp) (a : Addr) (ha : a.toNat < Config.protBoundary) :
    (s.busOp o).readByte a = s.readByte a := by
  cases o with
  | read b => rfl
  | write b v =>
    simp only [State.busOp, readByte_busWrite]
    split
    · next h => obtain ⟨rfl, h⟩ := h; omega
    · rfl
  | portIn p r => simp only [State.busOp]; split <;> rfl
  | portOut p v => rfl

theorem readByte_cpuLoop_protected (c0 fuel : Nat) (s : State) (a : Addr) (ha : a.toNat < Config.protBoundary) :
    (State.cpuLoop c0 fuel s).readByte a = s.readByte a :=
  cpuLoop_induct (P := fun t => t.readByte a = s.readByte a)
    (fun _ h => cpuStep_induct (P := fun t => t.readByte a = s.readByte a)
      (fun t o ht => (readByte_busOp_protected t o a ha).trans ht) (fun _ _ ht => ht) h) c0 fuel rfl

/-! ### The cycle counter -/

/-- What a CPU core never changes of itself: its moves, its idle step, its bound. -/
structure SameCore (c d : CpuCore) : Prop where
  moves : d.moves = c.moves
  idle : d.idle = c.idle
  opsPerStep : d.opsPerStep = c.opsPerStep

theorem SameCore.refl (c : CpuCore) : SameCore c c := ⟨rfl, rfl, rfl⟩

theorem SameCore.trans {c d e : CpuCore} (h : SameCore c d) (h' : SameCore d e) : SameCore c e :=
  ⟨h'.moves.trans h.moves, h'.idle.trans h.idle, h'.opsPerStep.trans h.opsPerStep⟩

/-- A bus operation changes of the CPU core the bytes returned to it only. -/
theorem busOp_cpu (s : State) (o : BusOp) : { (s.busOp o).cpu with results := s.cpu.results } = s.cpu := by
  cases o with
  | read b => rfl
  | write b v => simp [State.busOp]
  | portIn p r => simp only [State.busOp]; split <;> rfl
  | portOut p v => rfl

theorem issue_cyc (s : State) (o : BusOp) : (s.issue o).cpu.cyc = s.cpu.cyc :=
  (congrArg CpuCore.cyc (busOp_cpu s o) :)

theorem SameCore.issue (s : State) (o : BusOp) : SameCore s.cpu (s.issue o).cpu :=
  ⟨(congrArg CpuCore.moves (busOp_cpu s o) :), (congrArg CpuCore.idle (busOp_cpu s o) :),
    (congrArg CpuCore.opsPerStep (busOp_cpu s o) :)⟩

theorem SameCore.stepWithin (n : Nat) (s : State) : SameCore s.cpu (s.stepWithin n).cpu :=
  stepWithin_induct (P := fun t => SameCore s.cpu t.cpu) (fun t o h => h.trans (.issue t o))
    (fun _ h => h.trans ⟨rfl, rfl, rfl⟩) n (.refl _)

theorem SameCore.cpuStep (s : State) : SameCore s.cpu s.cpuStep.cpu := .stepWithin _ s

theorem SameCore.iterate_cpuStep (n : Nat) (s : State) : SameCore s.cpu (State.cpuStep^[n] s).cpu := by
  induction n generalizing s with
  | zero => exact .refl _
  | succ n ih => exact (SameCore.cpuStep s).trans (ih _)

/-- A move of a CPU core is its idle step or one it lists. -/
theorem move_cases (c : CpuCore) : c.move.cycles = c.idle ∨ c.move ∈ c.moves := by
  unfold CpuCore.move
  by_cases h : c.state < c.moves.length
  · right; simp [h]
  · left; simp [h]

/-- A CPU step adds to CYC the cycles of one of the core's moves (44_frame_scheduler R194). -/
theorem stepWithin_cyc (n : Nat) (s : State) :
    ∃ d : CpuCore, SameCore s.cpu d ∧ (s.stepWithin n).cpu.cyc = s.cpu.cyc + d.move.cycles := by
  induction n generalizing s with
  | zero => exact ⟨s.cpu, .refl _, rfl⟩
  | succ n ih =>
    unfold State.stepWithin
    split
    · exact ⟨s.cpu, .refl _, rfl⟩
    · next o _ =>
      obtain ⟨d, hd, h⟩ := ih (s.issue o)
      exact ⟨d, (SameCore.issue s o).trans hd, by rw [h, issue_cyc]⟩

/-- The cycles of a step lie between the bounds of all the core's moves. -/
theorem cpuStep_cyc_of {P : Nat → Prop} {s : State} (hidle : P s.cpu.idle) (hmoves : ∀ m ∈ s.cpu.moves, P m.cycles) :
    ∃ c, P c ∧ s.cpuStep.cpu.cyc = s.cpu.cyc + c := by
  obtain ⟨d, hd, h⟩ := stepWithin_cyc s.cpu.opsPerStep s
  refine ⟨d.move.cycles, ?_, h⟩
  rcases move_cases d with hc | hc
  · rw [hc, hd.idle]; exact hidle
  · rw [hd.moves] at hc; exact hmoves _ hc

theorem cpuStep_cyc_mono (s : State) : s.cpu.cyc ≤ s.cpuStep.cpu.cyc := by
  obtain ⟨c, -, h⟩ := cpuStep_cyc_of (P := fun _ => True) (s := s) trivial (fun _ _ => trivial)
  omega

theorem iterate_cyc_mono (s : State) : Monotone fun n => (State.cpuStep^[n] s).cpu.cyc :=
  monotone_nat_of_le_succ fun n => by
    rw [Function.iterate_succ_apply']
    exact cpuStep_cyc_mono _

theorem iterate_cyc_of_alwaysCounts {s : State} (h : s.cpu.alwaysCounts = true) (n : Nat) :
    s.cpu.cyc + n ≤ (State.cpuStep^[n] s).cpu.cyc := by
  simp only [CpuCore.alwaysCounts, Bool.and_eq_true, decide_eq_true_eq, List.all_eq_true] at h
  induction n with
  | zero => exact Nat.le_refl _
  | succ n ih =>
    have hs := SameCore.iterate_cpuStep n s
    rw [Function.iterate_succ_apply']
    obtain ⟨c, hc, he⟩ := cpuStep_cyc_of (P := fun c => 1 ≤ c) (s := State.cpuStep^[n] s) (by rw [hs.idle]; exact h.1)
      (by rw [hs.moves]; exact h.2)
    omega

theorem iterate_cyc_of_neverCounts {s : State} (h : s.cpu.neverCounts = true) (n : Nat) :
    (State.cpuStep^[n] s).cpu.cyc = s.cpu.cyc := by
  simp only [CpuCore.neverCounts, Bool.and_eq_true, beq_iff_eq, List.all_eq_true] at h
  induction n with
  | zero => rfl
  | succ n ih =>
    have hs := SameCore.iterate_cpuStep n s
    rw [Function.iterate_succ_apply']
    obtain ⟨c, hc, he⟩ := cpuStep_cyc_of (P := fun c => c = 0) (s := State.cpuStep^[n] s) (by rw [hs.idle]; exact h.1)
      (by rw [hs.moves]; exact h.2)
    omega

/-! ### When the loop ends -/

/-- Two states the CPU core cannot tell apart, now or later: the same session, matrix and memory, and the same state of its
own (all states it lists no move for are alike). -/
structure Alike (s u : State) : Prop where
  launch : u.launch = s.launch
  kbd : u.kbd = s.kbd
  memory : ∀ a, u.readByte a = s.readByte a
  core : SameCore s.cpu u.cpu
  state : min u.cpu.state s.cpu.moves.length = min s.cpu.state s.cpu.moves.length

/-- Alike states make the same move, but for where an unlisted state stays. -/
theorem Alike.move {s u : State} (h : Alike s u) :
    u.cpu.move.op = s.cpu.move.op ∧ u.cpu.move.cycles = s.cpu.move.cycles ∧
      (u.cpu.move = s.cpu.move ∨
        (s.cpu.move.op = none ∧ s.cpu.moves.length ≤ u.cpu.move.next ∧ s.cpu.moves.length ≤ s.cpu.move.next)) := by
  have hs := h.state
  unfold CpuCore.move
  rw [h.core.moves, h.core.idle]
  by_cases hl : s.cpu.state < s.cpu.moves.length
  · have : u.cpu.state = s.cpu.state := by omega
    simp [this, hl]
  · have : ¬ u.cpu.state < s.cpu.moves.length := by omega
    simp only [Nat.not_lt] at hl this
    simp [hl, this]

/-- A bus operation gives alike states the same byte and leaves them the same memory. -/
theorem Alike.busOp {s u : State} (h : Alike s u) (o : BusOp) :
    (∀ a, (u.busOp o).readByte a = (s.busOp o).readByte a) ∧
      (o.returns = true → (u.busOp o).cpu.results.head? = (s.busOp o).cpu.results.head?) := by
  cases o with
  | read b => exact ⟨h.memory, fun _ => congrArg some (h.memory b)⟩
  | write b v =>
    refine ⟨fun a => ?_, nofun⟩
    simp only [State.busOp, readByte_busWrite, h.memory]
  | portIn p r =>
    simp only [State.busOp]
    split
    · exact ⟨h.memory, fun _ => by simp [State.keyboardRead, State.returnByte, h.kbd]⟩
    · exact ⟨h.memory, fun _ => rfl⟩
  | portOut p v => exact ⟨h.memory, nofun⟩

theorem Alike.issue {s u : State} (h : Alike s u) (hm : u.cpu.move = s.cpu.move) (o : BusOp) :
    Alike (s.issue o) (u.issue o) where
  launch := by rw [(SameBlock.issue u o).launch, (SameBlock.issue s o).launch, h.launch]
  kbd := by rw [(SameBlock.issue u o).kbd, (SameBlock.issue s o).kbd, h.kbd]
  memory := (h.busOp o).1
  core := by
    have h1 := SameCore.issue s o
    have h2 := SameCore.issue u o
    exact ⟨h2.moves.trans (h.core.moves.trans h1.moves.symm), h2.idle.trans (h.core.idle.trans h1.idle.symm),
      h2.opsPerStep.trans (h.core.opsPerStep.trans h1.opsPerStep.symm)⟩
  state := by
    have hst : (u.issue o).cpu.state = (s.issue o).cpu.state := by
      simp only [State.issue, hm]
      cases hr : o.returns with
      | false => rfl
      | true => rw [(h.busOp o).2 hr]
    rw [hst]

theorem Alike.endStep {s u : State} (h : Alike s u) : Alike s.endStep u.endStep where
  launch := h.launch
  kbd := h.kbd
  memory := h.memory
  core := ⟨h.core.moves, h.core.idle, h.core.opsPerStep⟩
  state := by
    simp only [endStep_cpu_state, endStep_cpu_moves]
    rcases h.move.2.2 with hm | ⟨-, h1, h2⟩
    · rw [hm]
    · omega

/-- A step leaves alike states alike and adds the same to CYC. -/
theorem Alike.stepWithin (n : Nat) {s u : State} (h : Alike s u) :
    Alike (s.stepWithin n) (u.stepWithin n) ∧
      (u.stepWithin n).cpu.cyc + s.cpu.cyc = (s.stepWithin n).cpu.cyc + u.cpu.cyc := by
  have hend : Alike s.endStep u.endStep ∧ u.endStep.cpu.cyc + s.cpu.cyc = s.endStep.cpu.cyc + u.cpu.cyc :=
    ⟨h.endStep, by rw [endStep_cpu_cyc, endStep_cpu_cyc, h.move.2.1]; omega⟩
  induction n generalizing s u with
  | zero => exact hend
  | succ n ih =>
    unfold State.stepWithin
    rw [h.move.1]
    split
    · exact hend
    · next o ho =>
      have hm : u.cpu.move = s.cpu.move := h.move.2.2.resolve_right fun hr => by simp [hr.1] at ho
      have hi := h.issue hm o
      have := ih hi ⟨hi.endStep, by rw [endStep_cpu_cyc, endStep_cpu_cyc, hi.move.2.1]; omega⟩
      rw [issue_cyc, issue_cyc] at this
      exact this

theorem Alike.cpuStep {s u : State} (h : Alike s u) :
    Alike s.cpuStep u.cpuStep ∧ u.cpuStep.cpu.cyc + s.cpu.cyc = s.cpuStep.cpu.cyc + u.cpu.cyc := by
  unfold State.cpuStep
  rw [h.core.opsPerStep]
  exact h.stepWithin _

/-- From alike states on, CYC rises alike. -/
theorem Alike.iterate {s u : State} (h : Alike s u) (n : Nat) :
    Alike (State.cpuStep^[n] s) (State.cpuStep^[n] u) ∧
      (State.cpuStep^[n] u).cpu.cyc + s.cpu.cyc = (State.cpuStep^[n] s).cpu.cyc + u.cpu.cyc := by
  induction n with
  | zero => exact ⟨h, Nat.add_comm ..⟩
  | succ n ih =>
    rw [Function.iterate_succ_apply', Function.iterate_succ_apply']
    obtain ⟨h1, h2⟩ := ih.1.cpuStep
    exact ⟨h1, by have := ih.2; omega⟩

/-- A CPU core that comes back to a situation without having counted never counts again. -/
theorem cyc_stuck_of_alike {s : State} {p : Nat} (hp : 0 < p) (h : Alike s (State.cpuStep^[p] s))
    (hc : (State.cpuStep^[p] s).cpu.cyc = s.cpu.cyc) (n : Nat) : (State.cpuStep^[n] s).cpu.cyc = s.cpu.cyc := by
  induction n using Nat.strong_induction_on with
  | _ n ih =>
    by_cases hn : n ≤ p
    · have h1 := iterate_cyc_mono s (Nat.zero_le n)
      have h2 := iterate_cyc_mono s hn
      simp only [Function.iterate_zero, id] at h1 h2
      omega
    · have h1 := ih (n - p) (by omega)
      have h2 := (h.iterate (n - p)).2
      rw [← Function.iterate_add_apply, Nat.sub_add_cancel (by omega)] at h2
      omega

/-- What tells a CPU core's situations apart within one run. -/
def situation (len : Nat) (s : State) : Fin (len + 1) × (Fin (2 ^ addrBits) → Fin 256) :=
  (⟨min s.cpu.state len, by omega⟩, fun a => (s.readByte (BitVec.ofFin a)).toFin)

theorem card_situation (len : Nat) :
    Fintype.card (Fin (len + 1) × (Fin (2 ^ addrBits) → Fin 256)) = (len + 1) * memoryContents := by
  unfold memoryContents
  rw [Fintype.card_prod, Fintype.card_fin, Fintype.card_fun, Fintype.card_fin, Fintype.card_fin]

theorem alike_of_situation {s : State} {i j : Nat}
    (h : situation s.cpu.moves.length (State.cpuStep^[i] s) = situation s.cpu.moves.length (State.cpuStep^[j] s)) :
    Alike (State.cpuStep^[i] s) (State.cpuStep^[j] s) := by
  obtain ⟨h1, h2⟩ := Prod.mk.inj h
  have bi := SameBlock.iterate_cpuStep i s
  have bj := SameBlock.iterate_cpuStep j s
  have ci := SameCore.iterate_cpuStep i s
  have cj := SameCore.iterate_cpuStep j s
  refine ⟨bj.launch.trans bi.launch.symm, bj.kbd.trans bi.kbd.symm, fun a => ?_,
    ⟨cj.moves.trans ci.moves.symm, cj.idle.trans ci.idle.symm, cj.opsPerStep.trans ci.opsPerStep.symm⟩, ?_⟩
  · exact (BitVec.toFin_inj.mp (congrFun h2 a.toFin)).symm
  · rw [ci.moves]
    exact (Fin.mk.inj h1).symm

/-- CYC that stands still for as many steps as there are situations stands still for ever. -/
theorem cyc_stuck_of_still {s : State} {n : Nat} (hn : (s.cpu.moves.length + 1) * memoryContents ≤ n)
    (h : (State.cpuStep^[n] s).cpu.cyc = s.cpu.cyc) (m : Nat) : (State.cpuStep^[m] s).cpu.cyc = s.cpu.cyc := by
  have hcard : Fintype.card (Fin (s.cpu.moves.length + 1) × (Fin (2 ^ addrBits) → Fin 256)) <
      Fintype.card (Fin (n + 1)) := by
    rw [card_situation, Fintype.card_fin]; omega
  obtain ⟨i, j, hne, heq⟩ := Fintype.exists_ne_map_eq_of_card_lt
    (fun k : Fin (n + 1) => situation s.cpu.moves.length (State.cpuStep^[k.val] s)) hcard
  have hstill : ∀ k ≤ n, (State.cpuStep^[k] s).cpu.cyc = s.cpu.cyc := fun k hk => by
    have h1 := iterate_cyc_mono s (Nat.zero_le k)
    have h2 := iterate_cyc_mono s hk
    simp only [Function.iterate_zero, id] at h1 h2
    omega
  have key : ∀ i j : Nat, i < j → j ≤ n → situation s.cpu.moves.length (State.cpuStep^[i] s) =
      situation s.cpu.moves.length (State.cpuStep^[j] s) → (State.cpuStep^[m] s).cpu.cyc = s.cpu.cyc := by
    intro i j hij hj he
    by_cases hm : m ≤ n
    · exact hstill m hm
    · have ha := alike_of_situation he
      have hsplit : ∀ k, i ≤ k → State.cpuStep^[k] s = State.cpuStep^[k - i] (State.cpuStep^[i] s) := fun k hk => by
        rw [← Function.iterate_add_apply, Nat.sub_add_cancel hk]
      rw [hsplit j (by omega)] at ha
      have hs := cyc_stuck_of_alike (p := j - i) (by omega) ha
        (by rw [← hsplit j (by omega), hstill j hj, hstill i (by omega)]) (m - i)
      rw [hsplit m (by omega), hs, hstill i (by omega)]
  rcases Nat.lt_or_gt_of_ne (fun e => hne (Fin.ext e)) with hlt | hlt
  · exact key i j hlt (by omega) heq
  · exact key j i hlt (by omega) heq.symm

/-- If CYC reaches `b` at all, it does within `b` times as many steps as there are situations. -/
theorem cyc_reach {s : State} {b N : Nat} (hN : (s.cpu.moves.length + 1) * memoryContents ≤ N)
    (h : ∃ n, s.cpu.cyc + b ≤ (State.cpuStep^[n] s).cpu.cyc) :
    s.cpu.cyc + b ≤ (State.cpuStep^[b * N] s).cpu.cyc := by
  obtain ⟨n, hn⟩ := h
  induction b with
  | zero => simp
  | succ b ih =>
    have hb := ih (by omega)
    by_contra hlt
    rw [Nat.add_mul, Nat.one_mul, Nat.add_comm (b * N) N, Function.iterate_add_apply] at hlt
    have hup := iterate_cyc_mono (State.cpuStep^[b * N] s) (Nat.zero_le N)
    simp only [Function.iterate_zero, id] at hup
    have hs := cyc_stuck_of_still (s := State.cpuStep^[b * N] s) (n := N)
      (by rw [(SameCore.iterate_cpuStep _ s).moves]; exact hN) (by omega) n
    rw [← Function.iterate_add_apply] at hs
    have hmono := iterate_cyc_mono s (Nat.le_add_right n (b * N))
    simp only at hmono
    omega

/-- The loop is the first CPU steps: all before it leave CYC short of the budget, and it ends when the fuel is spent or the
budget reached. -/
theorem cpuLoop_eq_iterate (c0 fuel : Nat) (s : State) :
    ∃ n ≤ fuel, State.cpuLoop c0 fuel s = State.cpuStep^[n] s ∧
      (∀ m < n, (State.cpuStep^[m] s).cpu.cyc - c0 < s.launch.cfg.frameBudget) ∧
      (n = fuel ∨ s.launch.cfg.frameBudget ≤ (State.cpuStep^[n] s).cpu.cyc - c0) := by
  induction fuel generalizing s with
  | zero => exact ⟨0, Nat.le_refl _, rfl, fun m hm => absurd hm (Nat.not_lt_zero m), .inl rfl⟩
  | succ fuel ih =>
    unfold State.cpuLoop
    split
    · next hlt =>
      obtain ⟨n, hn, heq, hlow, hend⟩ := ih s.cpuStep
      rw [(SameBlock.cpuStep s).launch] at hlow hend
      refine ⟨n + 1, by omega, heq, fun m hm => ?_, ?_⟩
      · cases m with
        | zero => exact hlt
        | succ m => exact hlow m (by omega)
      · rcases hend with rfl | hend
        · exact .inl rfl
        · exact .inr hend
    · next hge => exact ⟨0, Nat.zero_le _, rfl, fun m hm => absurd hm (Nat.not_lt_zero m), .inr (Nat.not_lt.mp hge)⟩

/-- RUNCPU's progress is that some number of CPU steps raises CYC by the budget (44_frame_scheduler R195). -/
theorem cpuProgress_iff (s : State) :
    s.cpuProgress = true ↔ ∃ n, s.launch.cfg.frameBudget ≤ (State.cpuStep^[n] s).cpu.cyc - s.cpu.cyc := by
  unfold State.cpuProgress
  rw [Bool.or_eq_true, decide_eq_true_eq]
  constructor
  · rintro (h | h)
    · refine ⟨s.launch.cfg.frameBudget, ?_⟩
      have := iterate_cyc_of_alwaysCounts h s.launch.cfg.frameBudget
      omega
    · obtain ⟨n, -, heq, -⟩ := cpuLoop_eq_iterate s.cpu.cyc s.cpuFuel s
      exact ⟨n, heq ▸ h⟩
  · rintro ⟨n, hn⟩
    by_cases ha : s.cpu.alwaysCounts = true
    · exact .inl ha
    · right
      obtain ⟨k, -, heq, -, hk | hk⟩ := cpuLoop_eq_iterate s.cpu.cyc s.cpuFuel s
      · rw [heq, hk]
        unfold State.cpuFuel
        rw [if_neg ha]
        split
        · next h0 => rw [iterate_cyc_of_neverCounts h0] at hn; simpa using hn
        · refine Nat.le_sub_of_add_le' (cyc_reach (Nat.le_refl _) ⟨n, ?_⟩)
          have hm := iterate_cyc_mono s (Nat.zero_le n)
          simp only [Function.iterate_zero, id] at hm
          omega
      · rw [heq]; exact hk

/-- The loop of RUNCPU, when the CPU core makes progress: the least number of CPU steps that reaches the budget. -/
theorem cpuLoop_spec {s : State} (h : s.cpuProgress = true) :
    ∃ n, State.cpuLoop s.cpu.cyc s.cpuFuel s = State.cpuStep^[n] s ∧
      (∀ m < n, (State.cpuStep^[m] s).cpu.cyc - s.cpu.cyc < s.launch.cfg.frameBudget) ∧
      s.launch.cfg.frameBudget ≤ (State.cpuStep^[n] s).cpu.cyc - s.cpu.cyc := by
  obtain ⟨n, -, heq, hlow, hk | hend⟩ := cpuLoop_eq_iterate s.cpu.cyc s.cpuFuel s
  · refine ⟨n, heq, hlow, ?_⟩
    unfold State.cpuProgress at h
    rw [Bool.or_eq_true, decide_eq_true_eq] at h
    rcases h with ha | h
    · have hf : s.cpuFuel = s.launch.cfg.frameBudget := by simp [State.cpuFuel, ha]
      have := iterate_cyc_of_alwaysCounts ha n
      omega
    · rw [heq] at h; exact h
  · exact ⟨n, heq, hlow, hend⟩

/-- Without progress, no number of CPU steps reaches the budget. -/
theorem cyc_short_of_budget {s : State} (h : s.cpuProgress = false) (n : Nat) :
    (State.cpuStep^[n] s).cpu.cyc - s.cpu.cyc < s.launch.cfg.frameBudget := by
  by_contra hn
  have := (cpuProgress_iff s).mpr ⟨n, Nat.not_lt.mp hn⟩
  simp [h] at this

end Sys2Proof.Machine
end

