-- ==== Sys2Proof/Laws/Program.lean ====
section
/-! SUPPORT. What the emulated program cannot read has no part in a CPU step, in the RUNCPU loop, or in whether the loop
ends (60_exceptions R231). -/
namespace Sys2Proof.Machine

theorem SameForProgram.busOp {s u : State} (h : SameForProgram s u) (o : BusOp) :
    SameForProgram (s.busOp o) (u.busOp o) := by
  obtain ⟨h1, h2, h3, h4⟩ := h
  cases o with
  | read a => simp [SameForProgram, State.busOp, State.busRead, State.readByte, h1, h2, h3, h4]
  | write a v =>
    simp only [State.busOp, State.busWrite]
    split <;> simp [SameForProgram, h1, h2, h3, h4]
  | portIn p r =>
    simp only [State.busOp]
    split <;> simp [SameForProgram, State.keyboardRead, State.floatRead, h1, h2, h3, h4]
  | portOut p v => exact ⟨h1, h2, h3, h4⟩

theorem SameForProgram.issue {s u : State} (h : SameForProgram s u) (o : BusOp) :
    SameForProgram (s.issue o) (u.issue o) := by
  obtain ⟨g1, g2, g3, g4⟩ := h.busOp o
  exact ⟨g1, g2, by simp [State.issue, g3, h.2.2.1], g4⟩

theorem SameForProgram.endStep {s u : State} (h : SameForProgram s u) : SameForProgram s.endStep u.endStep :=
  ⟨h.1, h.2.1, by simp [State.endStep, h.2.2.1], h.2.2.2⟩

theorem SameForProgram.stepWithin (n : Nat) {s u : State} (h : SameForProgram s u) :
    SameForProgram (s.stepWithin n) (u.stepWithin n) := by
  induction n generalizing s u with
  | zero => exact h.endStep
  | succ n ih =>
    unfold State.stepWithin
    rw [h.2.2.1]
    split
    · exact h.endStep
    · exact ih (h.issue _)

theorem SameForProgram.cpuStep {s u : State} (h : SameForProgram s u) : SameForProgram s.cpuStep u.cpuStep := by
  unfold State.cpuStep
  rw [h.2.2.1]
  exact h.stepWithin _

theorem SameForProgram.cpuLoop (c0 fuel : Nat) {s u : State} (h : SameForProgram s u) :
    SameForProgram (State.cpuLoop c0 fuel s) (State.cpuLoop c0 fuel u) := by
  induction fuel generalizing s u with
  | zero => exact h
  | succ n ih =>
    unfold State.cpuLoop
    rw [h.2.2.1, h.2.2.2]
    split
    · exact ih h.cpuStep
    · exact h

theorem SameForProgram.cpuFuel {s u : State} (h : SameForProgram s u) : u.cpuFuel = s.cpuFuel := by
  unfold State.cpuFuel
  rw [h.2.2.1, h.2.2.2]

theorem SameForProgram.cpuProgress {s u : State} (h : SameForProgram s u) : u.cpuProgress = s.cpuProgress := by
  unfold State.cpuProgress
  rw [h.2.2.1, h.2.2.2, h.cpuFuel, (h.cpuLoop s.cpu.cyc s.cpuFuel).2.2.1]

@[simp] theorem deliver_cpuProgress (s : State) : s.deliver.cpuProgress = s.cpuProgress :=
  SameForProgram.cpuProgress (s := s) ⟨rfl, rfl, rfl, rfl⟩

@[simp] theorem setClock_cpuProgress (s : State) (c : HostClock) : (s.setClock c).cpuProgress = s.cpuProgress :=
  SameForProgram.cpuProgress (s := s) ⟨rfl, rfl, rfl, rfl⟩

end Sys2Proof.Machine
end

