-- ==== Sys2Proof/Laws/Clock.lean ====
section
/-! SUPPORT. The host clock: every shared operation that does not use it commutes with replacing it, and those that do
change nothing else by it (70_reset_and_hazards R276). -/
namespace Sys2Proof.Machine

@[simp] theorem setClock_mem (s : State) (c : HostClock) : (s.setClock c).mem = s.mem := rfl
@[simp] theorem setClock_kbd (s : State) (c : HostClock) : (s.setClock c).kbd = s.kbd := rfl
@[simp] theorem setClock_atlas (s : State) (c : HostClock) : (s.setClock c).atlas = s.atlas := rfl
@[simp] theorem setClock_fb (s : State) (c : HostClock) : (s.setClock c).fb = s.fb := rfl
@[simp] theorem setClock_quit (s : State) (c : HostClock) : (s.setClock c).quit = s.quit := rfl
@[simp] theorem setClock_phase (s : State) (c : HostClock) : (s.setClock c).phase = s.phase := rfl
@[simp] theorem setClock_evq (s : State) (c : HostClock) : (s.setClock c).evq = s.evq := rfl
@[simp] theorem setClock_cpu (s : State) (c : HostClock) : (s.setClock c).cpu = s.cpu := rfl
@[simp] theorem setClock_clock (s : State) (c : HostClock) : (s.setClock c).clock = c := rfl
@[simp] theorem setClock_launch (s : State) (c : HostClock) : (s.setClock c).launch = s.launch := rfl
@[simp] theorem setClock_exitStatus (s : State) (c : HostClock) : (s.setClock c).exitStatus = s.exitStatus := rfl
@[simp] theorem setClock_failure (s : State) (c : HostClock) : (s.setClock c).failure = s.failure := rfl
@[simp] theorem setClock_transport (s : State) (c : HostClock) : (s.setClock c).transport = s.transport := rfl
@[simp] theorem setClock_arrivals (s : State) (c : HostClock) : (s.setClock c).arrivals = s.arrivals := rfl
@[simp] theorem setClock_launches (s : State) (c : HostClock) : (s.setClock c).launches = s.launches := rfl
@[simp] theorem setClock_draws (s : State) (c : HostClock) : (s.setClock c).draws = s.draws := rfl
@[simp] theorem setClock_setClock (s : State) (c d : HostClock) : (s.setClock c).setClock d = s.setClock d := rfl
@[simp] theorem setClock_cpuFuel (s : State) (c : HostClock) : (s.setClock c).cpuFuel = s.cpuFuel := rfl
@[simp] theorem setClock_deliver (s : State) (c : HostClock) : (s.setClock c).deliver = s.deliver.setClock c := rfl

theorem busOp_setClock (s : State) (c : HostClock) (o : BusOp) : (s.setClock c).busOp o = (s.busOp o).setClock c := by
  cases o with
  | read a => rfl
  | write a v => simp only [State.busOp, State.busWrite]; split <;> rfl
  | portIn p r => simp only [State.busOp]; split <;> rfl
  | portOut p v => rfl

theorem issue_setClock (s : State) (c : HostClock) (o : BusOp) : (s.setClock c).issue o = (s.issue o).setClock c := by
  unfold State.issue
  rw [busOp_setClock]
  rfl

theorem stepWithin_setClock (n : Nat) (s : State) (c : HostClock) :
    (s.setClock c).stepWithin n = (s.stepWithin n).setClock c := by
  induction n generalizing s with
  | zero => rfl
  | succ n ih =>
    simp only [State.stepWithin, setClock_cpu, issue_setClock, ih]
    split <;> rfl

theorem cpuStep_setClock (s : State) (c : HostClock) : (s.setClock c).cpuStep = s.cpuStep.setClock c :=
  stepWithin_setClock _ s c

theorem iterate_cpuStep_setClock (n : Nat) (s : State) (c : HostClock) :
    State.cpuStep^[n] (s.setClock c) = (State.cpuStep^[n] s).setClock c := by
  induction n generalizing s with
  | zero => rfl
  | succ n ih => rw [Function.iterate_succ_apply, cpuStep_setClock, ih, Function.iterate_succ_apply]

theorem cpuLoop_setClock (c0 fuel : Nat) (s : State) (c : HostClock) :
    State.cpuLoop c0 fuel (s.setClock c) = (State.cpuLoop c0 fuel s).setClock c := by
  induction fuel generalizing s with
  | zero => rfl
  | succ n ih =>
    simp only [State.cpuLoop, setClock_cpu, setClock_launch, cpuStep_setClock, ih]
    split <;> rfl

theorem notify_setClock (s : State) (c : HostClock) (n : Notification) :
    (s.setClock c).notify n = (s.notify n).setClock c := by
  cases n <;> rfl

theorem foldl_notify_setClock (q : List Notification) (s : State) (c : HostClock) :
    q.foldl State.notify (s.setClock c) = (q.foldl State.notify s).setClock c := by
  induction q generalizing s with
  | nil => rfl
  | cons n rest ih => rw [List.foldl_cons, notify_setClock, ih, List.foldl_cons]

theorem walkColumns_setClock (s : State) (c : HostClock) (n : Nat) (cur : Addr) :
    walkColumns (s.setClock c) n cur = walkColumns s n cur := by
  induction n generalizing cur with
  | zero => rfl
  | succ n ih => simp only [walkColumns, ih]; rfl

theorem walkRows_setClock (s : State) (c : HostClock) (n : Nat) (cur : Addr) :
    walkRows (s.setClock c) n cur = walkRows s n cur := by
  induction n generalizing cur with
  | zero => rfl
  | succ n ih => simp only [walkRows, walkColumns_setClock, ih]

theorem displayFrame_setClock (s : State) (c : HostClock) : displayFrame (s.setClock c) = displayFrame s := by
  unfold displayFrame displayCells
  rw [walkRows_setClock]
  rfl

end Sys2Proof.Machine
end

