-- ==== Sys2Proof/Laws/Sizes.lean ====
section
/-! SUPPORT. The values of the named sizes of 00_scope R6, for arithmetic over them. -/
namespace Sys2Proof

theorem kbdRows_eq : Config.kbdRows = 8 := rfl
theorem kbdSlots_eq : Config.kbdSlots = 9 := rfl
theorem kbdCols_eq : Config.kbdCols = 5 := rfl
theorem dispRows_eq : Config.dispRows = 24 := rfl
theorem dispCols_eq : Config.dispCols = 32 := rfl
theorem lineStride_eq : Config.lineStride = 33 := rfl
theorem glyphPx_eq : Config.glyphPx = 8 := rfl
theorem scale_eq : Config.scale = 2 := rfl
theorem cellPx_eq : Config.cellPx = 16 := rfl
theorem nTiles_eq : Config.nTiles = 256 := rfl
theorem fbW_eq : Config.fbW = 512 := rfl
theorem fbH_eq : Config.fbH = 384 := rfl
theorem framePeriod_eq : Config.framePeriod = 20 := rfl
theorem protBoundary_eq : Config.protBoundary = 0x4000 := rfl

end Sys2Proof
end

