-- ==== Sys2Proof/Laws/Keyboard.lean ====
section
/-! SUPPORT. The matrix bit by bit: what pressing and releasing a bit, and a key, leaves in every bit and every slot. -/
namespace Sys2Proof.Machine

/-- Bit `j` of hardware row `r`. -/
def keyBit (k : Matrix) (r : Fin 8) (j : Nat) : Bool := (matrixRow k r).getLsbD j

theorem columnMask_getLsbD (col : Fin 5) (j : Nat) : (columnMask col).getLsbD j = decide (j = col.val) := by
  unfold columnMask
  by_cases h : j < 8
  · have : ∀ (c : Fin 5) (i : Fin 8), ((1 : Byte) <<< c.val).getLsbD i.val = decide (i.val = c.val) := by decide
    exact this col ⟨j, h⟩
  · rw [BitVec.getLsbD_of_ge _ _ (Nat.not_lt.mp h)]
    have := col.isLt
    simp; omega

theorem keyBit_pressBit (k : Matrix) (b : Row × Col) (r : Fin 8) (j : Nat) :
    keyBit (pressBit k b) r j = if r = b.1 ∧ j = b.2.val then false else keyBit k r j := by
  unfold keyBit pressBit matrixRow
  rw [Vector.getElem_set]
  by_cases h : b.1.val = r.val
  · have hr : r = b.1 := Fin.ext h.symm
    subst hr
    simp only [if_true, BitVec.getLsbD_and, BitVec.getLsbD_not, columnMask_getLsbD, true_and]
    by_cases hj : j < 8
    · by_cases he : j = b.2.val <;> simp [hj, he]
    · rw [BitVec.getLsbD_of_ge _ _ (Nat.not_lt.mp hj)]; simp
  · have hr : ¬ r = b.1 := fun e => h (congrArg Fin.val e.symm)
    simp [h, hr]

theorem keyBit_releaseBit (k : Matrix) (b : Row × Col) (r : Fin 8) (j : Nat) :
    keyBit (releaseBit k b) r j = if r = b.1 ∧ j = b.2.val then true else keyBit k r j := by
  unfold keyBit releaseBit matrixRow
  rw [Vector.getElem_set]
  by_cases h : b.1.val = r.val
  · have hr : r = b.1 := Fin.ext h.symm
    subst hr
    simp only [if_true, BitVec.getLsbD_or, columnMask_getLsbD, true_and]
    by_cases he : j = b.2.val <;> simp [he]
  · have hr : ¬ r = b.1 := fun e => h (congrArg Fin.val e.symm)
    simp [h, hr]

@[simp] theorem pressBit_dummy (k : Matrix) (b : Row × Col) : (pressBit k b)[8] = k[8] := by
  unfold pressBit
  rw [Vector.getElem_set_ne _ _ (Nat.ne_of_lt b.1.isLt)]

@[simp] theorem releaseBit_dummy (k : Matrix) (b : Row × Col) : (releaseBit k b)[8] = k[8] := by
  unfold releaseBit
  rw [Vector.getElem_set_ne _ _ (Nat.ne_of_lt b.1.isLt)]

/-- Clearing a list of bits clears exactly those. -/
theorem keyBit_foldl_pressBit (bits : List (Row × Col)) (k : Matrix) (r : Fin 8) (j : Nat) :
    keyBit (bits.foldl pressBit k) r j = if ∃ b ∈ bits, r = b.1 ∧ j = b.2.val then false else keyBit k r j := by
  induction bits generalizing k with
  | nil => simp
  | cons b rest ih =>
    rw [List.foldl_cons, ih, keyBit_pressBit]
    simp only [List.mem_cons, exists_eq_or_imp]
    by_cases h1 : r = b.1 ∧ j = b.2.val <;> by_cases h2 : ∃ c ∈ rest, r = c.1 ∧ j = c.2.val <;> simp only [h1, h2] <;> simp

/-- Setting a list of bits sets exactly those. -/
theorem keyBit_foldl_releaseBit (bits : List (Row × Col)) (k : Matrix) (r : Fin 8) (j : Nat) :
    keyBit (bits.foldl releaseBit k) r j = if ∃ b ∈ bits, r = b.1 ∧ j = b.2.val then true else keyBit k r j := by
  induction bits generalizing k with
  | nil => simp
  | cons b rest ih =>
    rw [List.foldl_cons, ih, keyBit_releaseBit]
    simp only [List.mem_cons, exists_eq_or_imp]
    by_cases h1 : r = b.1 ∧ j = b.2.val <;> by_cases h2 : ∃ c ∈ rest, r = c.1 ∧ j = c.2.val <;> simp only [h1, h2] <;> simp

theorem foldl_pressBit_dummy (bits : List (Row × Col)) (k : Matrix) : (bits.foldl pressBit k)[8] = k[8] := by
  induction bits generalizing k with
  | nil => rfl
  | cons b rest ih => rw [List.foldl_cons, ih, pressBit_dummy]

theorem foldl_releaseBit_dummy (bits : List (Row × Col)) (k : Matrix) : (bits.foldl releaseBit k)[8] = k[8] := by
  induction bits generalizing k with
  | nil => rfl
  | cons b rest ih => rw [List.foldl_cons, ih, releaseBit_dummy]

/-- Matrices with the same bits in every row and the same dummy slot are equal. -/
theorem matrix_ext {k k' : Matrix} (h : ∀ (r : Fin 8) (j : Nat), j < 8 → keyBit k r j = keyBit k' r j)
    (hd : k[8] = k'[8]) : k = k' := by
  apply Vector.ext
  intro i hi
  rw [kbdSlots_eq] at hi
  by_cases h8 : i < 8
  · exact BitVec.eq_of_getLsbD_eq fun j hj => h ⟨i, h8⟩ j hj
  · have : i = 8 := by omega
    subst this
    exact hd

/-- The high bits of a row are set exactly when its masked value says so (30_encoding R84). -/
theorem highBits_iff (b : Byte) : b &&& 0xE0 = 0xE0 ↔ ∀ j, 5 ≤ j → j < 8 → b.getLsbD j = true := by
  constructor
  · intro h j h5 h8
    have := congrArg (fun v : Byte => v.getLsbD j) h
    simp only [BitVec.getLsbD_and] at this
    have hm : ∀ i : Fin 8, 5 ≤ i.val → (0xE0 : Byte).getLsbD i.val = true := by decide
    rw [hm ⟨j, h8⟩ h5] at this
    simpa using this
  · intro h
    apply BitVec.eq_of_getLsbD_eq
    intro j hj
    rw [BitVec.getLsbD_and]
    by_cases h5 : 5 ≤ j
    · rw [h j h5 hj]; simp
    · have hm : ∀ i : Fin 8, ¬ 5 ≤ i.val → (0xE0 : Byte).getLsbD i.val = false := by decide
      rw [hm ⟨j, hj⟩ h5]; simp

theorem highBits_foldl_pressBit (bits : List (Row × Col)) {k : Matrix} {r : Fin 8}
    (h : matrixRow k r &&& 0xE0 = 0xE0) : matrixRow (bits.foldl pressBit k) r &&& 0xE0 = 0xE0 := by
  rw [highBits_iff] at h ⊢
  intro j h5 h8
  have hb := keyBit_foldl_pressBit bits k r j
  unfold keyBit at hb
  rw [hb, if_neg, h j h5 h8]
  rintro ⟨b, -, -, he⟩
  have : b.2.val < 5 := b.2.isLt
  omega

theorem highBits_foldl_releaseBit (bits : List (Row × Col)) {k : Matrix} {r : Fin 8}
    (h : matrixRow k r &&& 0xE0 = 0xE0) : matrixRow (bits.foldl releaseBit k) r &&& 0xE0 = 0xE0 := by
  rw [highBits_iff] at h ⊢
  intro j h5 h8
  have hb := keyBit_foldl_releaseBit bits k r j
  unfold keyBit at hb
  rw [hb]
  split
  · rfl
  · exact h j h5 h8

/-- The bits the erase alias drives (41_keyboard_matrix R132). -/
theorem drivenBits_eraseKey (c : Config) : drivenBits c c.eraseKey = [(0, 0), (4, 0)] := by
  simp [drivenBits, Config.eraseBitA, Config.eraseBitB]
  rfl

/-- The bit a mapped key drives (10_state R27). -/
theorem drivenBits_mapped {c : Config} {k : KeyId} (hk : k ≠ c.eraseKey) {b : Row × Col}
    (h : keyTableEntry c k = some b) : drivenBits c k = [b] := by
  simp [drivenBits, hk, h]

/-- An unmapped key drives no bit (41_keyboard_matrix R133). -/
theorem drivenBits_unmapped {c : Config} {k : KeyId} (hk : k ≠ c.eraseKey) (h : keyTableEntry c k = none) :
    drivenBits c k = [] := by
  simp [drivenBits, hk, h]

/-! ### The row select -/

/-- The selected row is the lowest clear bit (40_bus_adapter R115). -/
theorem selrow_eq_some_iff : ∀ (v : Byte) (p : Fin 8),
    selrow v = some p ↔ v.getLsbD p.val = false ∧ ∀ q : Fin 8, q < p → v.getLsbD q.val = true := by
  decide +kernel

theorem selrow_eq_none_iff : ∀ v : Byte, selrow v = none ↔ v = 0xFF := by decide +kernel

theorem selrow_oneRowSelect : ∀ p : Fin 8, selrow (oneRowSelect p) = some p := by decide +kernel

end Sys2Proof.Machine
end

