-- ==== Sys2Proof/Laws/Events.lean ====
section
/-! SUPPORT. Draining notifications: what any number of them leaves unchanged, and when the termination flag ends set
(44_frame_scheduler R197 to R200). -/
namespace Sys2Proof.Machine

/-- Notifications change at most the matrix and `quit`. -/
theorem foldl_notify_frame (q : List Notification) (s : State) :
    { (q.foldl State.notify s) with kbd := s.kbd, quit := s.quit } = s := by
  induction q generalizing s with
  | nil => rfl
  | cons n rest ih =>
    refine Eq.trans (congrArg (fun u : State => { u with kbd := s.kbd, quit := s.quit }) (ih (s.notify n))) ?_
    cases n <;> rfl

theorem foldl_notify_quit (q : List Notification) (s : State) :
    (q.foldl State.notify s).quit = true ↔ s.quit = true ∨ Notification.quit ∈ q := by
  induction q generalizing s with
  | nil => simp
  | cons n rest ih => rw [List.foldl_cons, ih]; cases n <;> simp [State.notify]

/-- A property of the matrix that every key operation keeps survives any notifications. -/
theorem foldl_notify_kbd {P : Matrix → Prop}
    (hpress : ∀ (bits : List (Fin 8 × Fin 5)) (k : Matrix), P k → P (bits.foldl pressBit k))
    (hrelease : ∀ (bits : List (Fin 8 × Fin 5)) (k : Matrix), P k → P (bits.foldl releaseBit k))
    (q : List Notification) (s : State) (h : P s.kbd) : P (q.foldl State.notify s).kbd := by
  induction q generalizing s with
  | nil => exact h
  | cons n rest ih =>
    refine ih _ ?_
    cases n with
    | keyDown k => exact hpress _ _ h
    | keyUp k => exact hrelease _ _ h
    | quit => exact h
    | other => exact h

/-! ### drainQueue -/

@[simp] theorem drainQueue_mem (s : State) : s.drainQueue.mem = s.mem := by
  have h := congrArg State.mem (foldl_notify_frame s.evq s)
  exact h
@[simp] theorem drainQueue_atlas (s : State) : s.drainQueue.atlas = s.atlas := by
  have h := congrArg State.atlas (foldl_notify_frame s.evq s)
  exact h
@[simp] theorem drainQueue_fb (s : State) : s.drainQueue.fb = s.fb := by
  have h := congrArg State.fb (foldl_notify_frame s.evq s)
  exact h
@[simp] theorem drainQueue_cpu (s : State) : s.drainQueue.cpu = s.cpu := by
  have h := congrArg State.cpu (foldl_notify_frame s.evq s)
  exact h
@[simp] theorem drainQueue_launch (s : State) : s.drainQueue.launch = s.launch := by
  have h := congrArg State.launch (foldl_notify_frame s.evq s)
  exact h
@[simp] theorem drainQueue_exitStatus (s : State) : s.drainQueue.exitStatus = s.exitStatus := by
  have h := congrArg State.exitStatus (foldl_notify_frame s.evq s)
  exact h
@[simp] theorem drainQueue_failure (s : State) : s.drainQueue.failure = s.failure := by
  have h := congrArg State.failure (foldl_notify_frame s.evq s)
  exact h
@[simp] theorem drainQueue_transport (s : State) : s.drainQueue.transport = s.transport := by
  have h := congrArg State.transport (foldl_notify_frame s.evq s)
  exact h
@[simp] theorem drainQueue_arrivals (s : State) : s.drainQueue.arrivals = s.arrivals := by
  have h := congrArg State.arrivals (foldl_notify_frame s.evq s)
  exact h
@[simp] theorem drainQueue_launches (s : State) : s.drainQueue.launches = s.launches := by
  have h := congrArg State.launches (foldl_notify_frame s.evq s)
  exact h
@[simp] theorem drainQueue_draws (s : State) : s.drainQueue.draws = s.draws := by
  have h := congrArg State.draws (foldl_notify_frame s.evq s)
  exact h
@[simp] theorem drainQueue_evq (s : State) : s.drainQueue.evq = [] := rfl
@[simp] theorem drainQueue_phase (s : State) : s.drainQueue.phase = .decode := rfl

end Sys2Proof.Machine
end

