-- ==== Sys2Proof/Laws/Exec.lean ====
section
/-! SUPPORT. One equation per operation: what `exec` answers, in the shared operations; what the scheduler's composed
operations change; and what the fetch answers. -/
namespace Sys2Proof.Machine

@[simp] theorem exec_read (a : Addr) (s : State) : exec (.read a) s = .next (s.busRead a) := rfl
@[simp] theorem exec_write (a : Addr) (v : Byte) (s : State) : exec (.write a v) s = .next (s.busWrite a v) := rfl
@[simp] theorem exec_portinKbd (p r : Byte) (s : State) : exec (.portinKbd p r) s = .next (s.keyboardRead r) := rfl
@[simp] theorem exec_portinFloat (p r : Byte) (s : State) : exec (.portinFloat p r) s = .next s.floatRead := rfl
@[simp] theorem exec_portout (p v h : Byte) (s : State) : exec (.portout p v h) s = .next s := rfl
@[simp] theorem exec_keydown (k : KeyId) (s : State) : exec (.keydown k) s = .next (s.pressKey k) := rfl
@[simp] theorem exec_keyup (k : KeyId) (s : State) : exec (.keyup k) s = .next (s.releaseKey k) := rfl
@[simp] theorem exec_quit (s : State) : exec .quit s = .next s.setQuit := rfl
@[simp] theorem exec_decode (s : State) : exec .decode s = .next s.displayPass := rfl
@[simp] theorem exec_rasterize (s : State) : exec .rasterize s = ifLegalLaunch s.launch s.buildAtlas := rfl
@[simp] theorem exec_reset (s : State) :
    exec .reset s = ifLegalLaunch s.beginSession.launch s.beginSession.initialise := rfl
@[simp] theorem exec_runcpu (s : State) : exec .runcpu s = s.runCpu := rfl
@[simp] theorem exec_drain (s : State) : exec .drain s = .next s.drainQueue := rfl
@[simp] theorem exec_pace (s : State) : exec .pace s = .next s.paceFrame := rfl

/-- A bus operation the CPU core issues is the operation of the table it stands for (44_frame_scheduler R193). -/
theorem exec_busOp (s : State) (o : BusOp) : exec o.instr s = .next (s.busOp o) := by
  cases o with
  | portIn p r =>
    have h : keyboardPort p = !p.getLsbD 0 := rfl
    cases hb : p.getLsbD 0 <;> rw [hb] at h <;> simp only [BusOp.instr, State.busOp, hb, h] <;> rfl
  | _ => rfl

theorem runCpu_of_progress {s : State} (h : s.cpuProgress = true) : s.runCpu = .next s.cpuPhase := by
  simp [State.runCpu, h]

theorem runCpu_eq_next_iff {s t : State} : s.runCpu = .next t ↔ s.cpuProgress = true ∧ t = s.cpuPhase := by
  unfold State.runCpu
  split
  · next h => simp [h, eq_comm]
  · next h => simp [h]

/-- What a FRAME that completes is (44_frame_scheduler R190). -/
theorem exec_frame_eq_next_iff {s t : State} :
    exec .frame s = .next t ↔ s.cpuProgress = true ∧ t = s.cpuPhase.drainQueue.displayPass.paceFrame := by
  show execFrame s = .next t ↔ _
  unfold execFrame State.runCpu
  cases s.cpuProgress <;> simp [eq_comm]

/-- Loop step 1 changes memory, the CPU core, the clock and the phase. -/
theorem SameBlock.cpuPhase (s : State) : SameBlock s { s.cpuPhase with phase := s.phase, clock := s.clock } := by
  have h := SameBlock.cpuLoop s.cpu.cyc s.cpuFuel s.startTimer
  exact ⟨h.kbd, h.atlas, h.fb, h.quit, rfl, h.evq, rfl, h.launch, h.exitStatus, h.failure, h.transport, h.arrivals,
    h.launches, h.draws⟩

@[simp] theorem cpuPhase_kbd (s : State) : s.cpuPhase.kbd = s.kbd := (SameBlock.cpuPhase s).kbd
@[simp] theorem cpuPhase_atlas (s : State) : s.cpuPhase.atlas = s.atlas := (SameBlock.cpuPhase s).atlas
@[simp] theorem cpuPhase_fb (s : State) : s.cpuPhase.fb = s.fb := (SameBlock.cpuPhase s).fb
@[simp] theorem cpuPhase_quit (s : State) : s.cpuPhase.quit = s.quit := (SameBlock.cpuPhase s).quit
@[simp] theorem cpuPhase_evq (s : State) : s.cpuPhase.evq = s.evq := (SameBlock.cpuPhase s).evq
@[simp] theorem cpuPhase_launch (s : State) : s.cpuPhase.launch = s.launch := (SameBlock.cpuPhase s).launch
@[simp] theorem cpuPhase_exitStatus (s : State) : s.cpuPhase.exitStatus = s.exitStatus := (SameBlock.cpuPhase s).exitStatus
@[simp] theorem cpuPhase_failure (s : State) : s.cpuPhase.failure = s.failure := (SameBlock.cpuPhase s).failure
@[simp] theorem cpuPhase_transport (s : State) : s.cpuPhase.transport = s.transport := (SameBlock.cpuPhase s).transport
@[simp] theorem cpuPhase_arrivals (s : State) : s.cpuPhase.arrivals = s.arrivals := (SameBlock.cpuPhase s).arrivals
@[simp] theorem cpuPhase_launches (s : State) : s.cpuPhase.launches = s.launches := (SameBlock.cpuPhase s).launches
@[simp] theorem cpuPhase_draws (s : State) : s.cpuPhase.draws = s.draws := (SameBlock.cpuPhase s).draws
@[simp] theorem cpuPhase_phase (s : State) : s.cpuPhase.phase = .drain := rfl

/-- Running on: `n + 1` steps are one step and then `n`. -/
theorem core_run_succ (n : Nat) (s : State) :
    core.run (n + 1) s =
      match step s with
      | .next t => core.run n t
      | .fault r => .fault r
      | .refused r => .refused r := by
  refine (Host.Core.run.eq_def core (n + 1) s).trans ?_
  have h : core.step s = step s := rfl
  dsimp only
  rw [h]
  cases step s <;> rfl

/-- A fetch answers the sequencer's own operation when no word is presented. -/
theorem nextOperation_own {s : State} (h : s.transport = []) {i : Instr} (ho : ownOperation s.phase = some i) :
    nextOperation s = .next (i, s) := by
  simp [nextOperation, h, ho]

/-- A fetch answers an enabled word's operation. -/
theorem nextOperation_word {s : State} {w : Word} {rest : List Word} (h : s.transport = w :: rest) {i : Instr}
    (hd : decode w = .ok i) (he : enabled s.phase i = true) :
    nextOperation s = .next (i, { s with transport := rest }) := by
  simp [nextOperation, h, hd, he]

/-- When an operation is enabled (30_encoding R96, log 2). -/
theorem enabled_iff (p : Phase) (i : Instr) :
    enabled p i = true ↔
      i = .reset ∨ ((i = .frame ∨ i = .runcpu) ∧ p = .runcpu) ∨ ((i = .drain ∨ i = .quit) ∧ p = .drain) ∨
        (i = .pace ∧ p = .pace) ∨
        (i ∉ [.frame, .runcpu, .drain, .quit, .pace] ∧ p ≠ .halted ∧ p ≠ .failed) := by
  cases i <;> cases p <;> simp [enabled, Phase.running]

/-- An operation that is not enabled is never performed. -/
theorem stopped_ne_next (s : State) (x : Instr × State) : stopped s ≠ .next x := by
  unfold stopped
  split <;> simp

/-- What a fetch answers is enabled, and only the transport has changed. -/
theorem nextOperation_eq_next {s u : State} {i : Instr} (h : nextOperation s = .next (i, u)) :
    enabled s.phase i = true ∧ u = { s with transport := s.transport.tail } := by
  unfold nextOperation at h
  split at h
  · next w rest ht =>
    split at h
    · cases h
    · split at h
      · next he => cases h; exact ⟨he, by rw [ht]; rfl⟩
      · exact absurd h (stopped_ne_next s _)
  · next ht =>
    split at h
    · next j hj =>
      cases h
      refine ⟨?_, ?_⟩
      · cases hp : s.phase <;> rw [hp] at hj <;> simp [ownOperation] at hj <;> subst hj <;> rfl
      · cases s; dsimp only at ht; subst ht; rfl
    · exact absurd h (stopped_ne_next s _)

/-- A step that answers a next state performs an enabled operation. -/
theorem step_eq_next {s t : State} (h : step s = .next t) :
    ∃ i u, nextOperation s.deliver = .next (i, u) ∧ exec i u = .next t := by
  unfold step at h
  cases hn : nextOperation s.deliver with
  | next p => rw [hn] at h; exact ⟨p.1, p.2, rfl, h⟩
  | fault r => rw [hn] at h; cases h
  | refused r => rw [hn] at h; cases h

/-- RESET ends in RUNCPU or FAILED. -/
theorem initialise_phase (s : State) : s.initialise.phase = .runcpu ∨ s.initialise.phase = .failed := by
  unfold State.initialise State.enterLoop
  split
  · split
    · next h => exact .inr h
    · exact .inl rfl
  · exact .inr rfl

/-- A legal launch lets the operation through; another is refused by name (00_scope R8, 10_state R22). -/
theorem ifLegalLaunch_of_legal {l : Launch} (h : legalLaunch l = true) (s : State) : ifLegalLaunch l s = .next s := by
  simp only [legalLaunch, Bool.and_eq_true] at h
  simp [ifLegalLaunch, h.1, h.2]

theorem ifLegalLaunch_eq_next {l : Launch} {s t : State} (h : ifLegalLaunch l s = .next t) :
    legalLaunch l = true ∧ t = s := by
  unfold ifLegalLaunch at h
  split at h
  · cases h
  · split at h
    · cases h
    · next h1 h2 =>
      cases h
      simp only [Bool.not_eq_true', Bool.not_eq_false] at h1 h2
      simp [legalLaunch, h1, h2]

end Sys2Proof.Machine
end

