-- ==== Sys2Proof/Laws/Fields.lean ====
section
/-! SUPPORT. The fields of a packed transaction word, and the word packed from its fields. -/
namespace Sys2Proof

theorem addrBits_eq : addrBits = 16 := rfl

/-- Bit `i` of a packed word: `d` in 7..0, `a` in 23..8, zero in 27..24, `op` in 31..28. -/
theorem packWord_getLsbD (op : BitVec 4) (a : Addr) (d : Byte) (i : Nat) :
    (packWord op a d).getLsbD i =
      if i < 8 then d.getLsbD i else if i < 24 then a.getLsbD (i - 8)
      else if i < 28 then false else op.getLsbD (i - 28) := by
  unfold packWord
  rw [BitVec.getLsbD_append, BitVec.getLsbD_append, BitVec.getLsbD_append, show addrBits + 8 = 24 from rfl]
  split_ifs <;> first | rfl | omega | simp

@[simp] theorem opField_packWord (op : BitVec 4) (a : Addr) (d : Byte) : opField (packWord op a d) = op := by
  apply BitVec.eq_of_getLsbD_eq
  intro i hi
  unfold opField
  rw [BitVec.getLsbD_extractLsb', packWord_getLsbD, if_neg (by omega), if_neg (by omega), if_neg (by omega),
    Nat.add_sub_cancel_left]
  simp [hi]

@[simp] theorem zeroField_packWord (op : BitVec 4) (a : Addr) (d : Byte) : zeroField (packWord op a d) = 0 := by
  apply BitVec.eq_of_getLsbD_eq
  intro i hi
  unfold zeroField
  rw [BitVec.getLsbD_extractLsb', packWord_getLsbD, if_neg (by omega), if_neg (by omega), if_pos (by omega)]
  simp

@[simp] theorem dField_packWord (op : BitVec 4) (a : Addr) (d : Byte) : dField (packWord op a d) = d := by
  apply BitVec.eq_of_getLsbD_eq
  intro i hi
  unfold dField
  rw [BitVec.getLsbD_extractLsb', packWord_getLsbD, if_pos (by omega), Nat.zero_add]
  simp [hi]

@[simp] theorem aField_packWord (op : BitVec 4) (a : Addr) (d : Byte) : aField (packWord op a d) = a := by
  apply BitVec.eq_of_getLsbD_eq
  intro i hi
  rw [addrBits_eq] at hi
  unfold aField
  rw [BitVec.getLsbD_extractLsb', packWord_getLsbD, if_neg (by omega), if_pos (by omega), Nat.add_sub_cancel_left]
  simp [hi]

theorem hiField_append_loField (w : Word) : hiField w ++ loField w = aField w := by
  apply BitVec.eq_of_getLsbD_eq
  intro i hi
  unfold hiField loField aField
  simp only [BitVec.getLsbD_extractLsb', BitVec.getLsbD_append]
  split_ifs with h
  · simp [h, hi]
  · simp [hi, show i - 8 < 8 by omega, show 16 + (i - 8) = 8 + i by omega]

theorem append_inj_byte {h l h' l' : Byte} (e : h ++ l = h' ++ l') : h = h' ∧ l = l' := by
  constructor
  · apply BitVec.eq_of_getLsbD_eq
    intro i hi
    have h2 := congrArg (fun v : BitVec (8 + 8) => v.getLsbD (8 + i)) e
    simp only [BitVec.getLsbD_append, show ¬ 8 + i < 8 by omega, if_false, Nat.add_sub_cancel_left] at h2
    exact h2
  · apply BitVec.eq_of_getLsbD_eq
    intro i hi
    have h2 := congrArg (fun v : BitVec (8 + 8) => v.getLsbD i) e
    simp only [BitVec.getLsbD_append, hi, if_true] at h2
    exact h2

@[simp] theorem hiField_packWord (op : BitVec 4) (h l d : Byte) : hiField (packWord op (h ++ l) d) = h :=
  (append_inj_byte ((hiField_append_loField _).trans (aField_packWord op (h ++ l) d))).1

@[simp] theorem loField_packWord (op : BitVec 4) (h l d : Byte) : loField (packWord op (h ++ l) d) = l :=
  (append_inj_byte ((hiField_append_loField _).trans (aField_packWord op (h ++ l) d))).2

/-- The low 24 bits, which an operation without operands needs to be zero (30_encoding R93). -/
theorem low24_eq_zero_iff (w : Word) :
    w.extractLsb' 0 24 = 0 ↔ aField w = 0 ∧ dField w = 0 := by
  constructor
  · intro h
    constructor
    · apply BitVec.eq_of_getLsbD_eq
      intro i hi
      rw [addrBits_eq] at hi
      have := congrArg (fun v : BitVec 24 => v.getLsbD (8 + i)) h
      simp only [BitVec.getLsbD_extractLsb', Nat.zero_add] at this
      simpa [aField, hi, show 8 + i < 24 by omega] using this
    · apply BitVec.eq_of_getLsbD_eq
      intro i hi
      have := congrArg (fun v : BitVec 24 => v.getLsbD i) h
      simp only [BitVec.getLsbD_extractLsb', Nat.zero_add] at this
      simpa [dField, hi, show i < 24 by omega] using this
  · rintro ⟨ha, hd⟩
    apply BitVec.eq_of_getLsbD_eq
    intro i hi
    rw [BitVec.getLsbD_extractLsb']
    by_cases h8 : i < 8
    · have := congrArg (fun v : Byte => v.getLsbD i) hd
      simpa [dField, hi, h8] using this
    · have := congrArg (fun v : Addr => v.getLsbD (i - 8)) ha
      simpa [aField, hi, show i - 8 < 16 by omega, show 8 + (i - 8) = i by omega] using this

/-- A word whose zero field is zero is its fields packed. -/
theorem packWord_fields (w : Word) (hz : zeroField w = 0) : packWord (opField w) (aField w) (dField w) = w := by
  apply BitVec.eq_of_getLsbD_eq
  intro i hi
  rw [packWord_getLsbD]
  split_ifs with h1 h2 h3
  · simp [dField, h1]
  · simp [aField, show i - 8 < 16 by omega, show 8 + (i - 8) = i by omega]
  · have := congrArg (fun v : BitVec 4 => v.getLsbD (i - 24)) hz
    simp only [zeroField, BitVec.getLsbD_extractLsb', show i - 24 < 4 by omega, decide_true, Bool.true_and,
      show 24 + (i - 24) = i by omega] at this
    simpa using this.symm
  · simp [opField, show i - 28 < 4 by omega, show 28 + (i - 28) = i by omega]

theorem packWord_low24 (op : BitVec 4) : (packWord op 0 0).extractLsb' 0 24 = 0 :=
  (low24_eq_zero_iff _).mpr ⟨aField_packWord _ _ _, dField_packWord _ _ _⟩

theorem ifZero_eq_ok {n : Nat} {v : BitVec n} {i j : Instr} : ifZero v i = .ok j ↔ v = 0 ∧ i = j := by
  unfold ifZero
  split <;> simp_all

end Sys2Proof
end

