-- ==== Sys2Proof/Laws/PerInstr.lean ====
section
/-! SUPPORT. The family EncodedFields: the fields every operation's word has in common, one lemma per constructor. -/
namespace Sys2Proof.Laws

/-- The operation code of 30_encoding R94. -/
def opcode : Instr → BitVec 4
  | .read _ => 0x0
  | .write _ _ => 0x1
  | .portinKbd _ _ => 0x2
  | .portinFloat _ _ => 0x2
  | .portout _ _ _ => 0x3
  | .keydown _ => 0x4
  | .keyup _ => 0x5
  | .quit => 0x6
  | .decode => 0x7
  | .rasterize => 0x8
  | .reset => 0x9
  | .frame => 0xA
  | .runcpu => 0xB
  | .drain => 0xC
  | .pace => 0xD

/-- The word of an operation has its operation code and a zero field of zero. -/
def EncodedFields.Statement (i : Instr) : Prop := opField (encode i) = opcode i ∧ zeroField (encode i) = 0

theorem EncodedFields.read (address : Addr) : Statement (.read address) := ⟨opField_packWord .., zeroField_packWord ..⟩
theorem EncodedFields.write (address : Addr) (byte : Byte) : Statement (.write address byte) :=
  ⟨opField_packWord .., zeroField_packWord ..⟩
theorem EncodedFields.portinKbd (port rowsel : Byte) : Statement (.portinKbd port rowsel) :=
  ⟨opField_packWord .., zeroField_packWord ..⟩
theorem EncodedFields.portinFloat (port rowsel : Byte) : Statement (.portinFloat port rowsel) :=
  ⟨opField_packWord .., zeroField_packWord ..⟩
theorem EncodedFields.portout (port byte hi : Byte) : Statement (.portout port byte hi) :=
  ⟨opField_packWord .., zeroField_packWord ..⟩
theorem EncodedFields.keydown (key : KeyId) : Statement (.keydown key) := ⟨opField_packWord .., zeroField_packWord ..⟩
theorem EncodedFields.keyup (key : KeyId) : Statement (.keyup key) := ⟨opField_packWord .., zeroField_packWord ..⟩
theorem EncodedFields.quit : Statement .quit := ⟨opField_packWord .., zeroField_packWord ..⟩
theorem EncodedFields.decode : Statement .decode := ⟨opField_packWord .., zeroField_packWord ..⟩
theorem EncodedFields.rasterize : Statement .rasterize := ⟨opField_packWord .., zeroField_packWord ..⟩
theorem EncodedFields.reset : Statement .reset := ⟨opField_packWord .., zeroField_packWord ..⟩
theorem EncodedFields.frame : Statement .frame := ⟨opField_packWord .., zeroField_packWord ..⟩
theorem EncodedFields.runcpu : Statement .runcpu := ⟨opField_packWord .., zeroField_packWord ..⟩
theorem EncodedFields.drain : Statement .drain := ⟨opField_packWord .., zeroField_packWord ..⟩
theorem EncodedFields.pace : Statement .pace := ⟨opField_packWord .., zeroField_packWord ..⟩

end Sys2Proof.Laws
end

