-- ==== Sys2Proof/Laws/Pixels.lean ====
section
/-! SUPPORT. Tables of pixels, the atlas RASTERIZE builds in closed form, and the display walk in closed form. -/
namespace Sys2Proof

@[simp] theorem getElem_tabulate {α : Type} {n : Nat} (f : Nat → α) (i : Nat) (h : i < n) :
    (tabulate n f)[i] = f i := by
  simp [tabulate]

end Sys2Proof

namespace Sys2Proof.Machine

/-! ### The atlas -/

/-- Painting the codes of a list, when the ranges of the normal and the inverse tiles do not overlap: a tile is the one of
the code that paints it, or what it was. -/
theorem getElem_foldl_paintCode {l : Launch} (hov : l.cfg.nChars ≤ l.cfg.invOffset) :
    ∀ (codes : List Nat) (atlas : Atlas) (t : Nat) (ht : t < 256), (∀ k ∈ codes, k < l.cfg.nChars) →
      (codes.foldl (paintCode l) atlas)[t] =
        if t ∈ codes then glyphTile l t l.cfg.ink l.cfg.paper
        else if l.cfg.invOffset ≤ t ∧ t - l.cfg.invOffset ∈ codes then
          glyphTile l (t - l.cfg.invOffset) l.cfg.paper l.cfg.ink
        else atlas[t]
  | [], atlas, t, ht, _ => by simp
  | k :: rest, atlas, t, ht, hk => by
    have ih := getElem_foldl_paintCode hov rest (paintCode l atlas k) t ht
      (fun c hc => hk c (List.mem_cons_of_mem _ hc))
    have hkn := hk k (List.mem_cons_self ..)
    rw [List.foldl_cons, ih]
    unfold paintCode
    simp only [Vector.getElem_setIfInBounds, List.mem_cons]
    by_cases h1 : t ∈ rest
    · simp [h1]
    · by_cases h2 : t = k
      · subst h2
        have : ¬ l.cfg.invOffset ≤ t := by omega
        have h0 : l.cfg.invOffset ≠ 0 := by omega
        simp [h1, this, h0]
      · have h2' : ¬ k = t := fun e => h2 e.symm
        by_cases h3 : l.cfg.invOffset ≤ t ∧ t - l.cfg.invOffset ∈ rest
        · simp [h1, h2, h3]
        · by_cases h4 : k + l.cfg.invOffset = t
          · have he : t - l.cfg.invOffset = k := by omega
            have hle : l.cfg.invOffset ≤ t := by omega
            simp [h1, h2, h4, he, hle]
          · have h5 : ¬ (l.cfg.invOffset ≤ t ∧ (t - l.cfg.invOffset = k ∨ t - l.cfg.invOffset ∈ rest)) := by
              rintro ⟨ha, hb | hb⟩
              · omega
              · exact h3 ⟨ha, hb⟩
            simp [h1, h2, h2', h3, h4, h5]

/-- Every tile of the atlas: the normal tile of its code, the inverse tile of its code, or the fill tile
(43_font_rasterizer R171, R174). -/
theorem getElem_rasterisedAtlas {l : Launch} (hl : legalConfig l.cfg = true) (t : Nat) (ht : t < 256) :
    (rasterisedAtlas l)[t] =
      if t < l.cfg.nChars then glyphTile l t l.cfg.ink l.cfg.paper
      else if l.cfg.invOffset ≤ t ∧ t < l.cfg.invOffset + l.cfg.nChars then
        glyphTile l (t - l.cfg.invOffset) l.cfg.paper l.cfg.ink
      else uniformTile l.cfg.atlasFill := by
  have hov : l.cfg.nChars ≤ l.cfg.invOffset := by
    simp only [legalConfig, Bool.and_eq_true, decide_eq_true_eq] at hl; omega
  unfold rasterisedAtlas
  rw [getElem_foldl_paintCode hov _ _ t ht (fun k hk => List.mem_range.mp hk)]
  simp only [List.mem_range, getElem_tabulate]
  by_cases h1 : t < l.cfg.nChars
  · simp [h1]
  · simp only [h1, if_false]
    have : (l.cfg.invOffset ≤ t ∧ t - l.cfg.invOffset < l.cfg.nChars) ↔
        (l.cfg.invOffset ≤ t ∧ t < l.cfg.invOffset + l.cfg.nChars) := by omega
    simp only [this]

/-- A pixel of a glyph's tile (43_font_rasterizer R175). -/
theorem glyphTile_pixel (l : Launch) (k : Nat) (set clear : Colour) (y x : Nat) (hy : y < 16) (hx : x < 16) :
    (glyphTile l k set clear)[y][x] =
      if glyphBit l.cfg (glyphByte l k (y / 2)) (x / 2) then set else clear := by
  simp [glyphTile]

theorem uniformTile_pixel (c : Colour) (y x : Nat) (hy : y < 16) (hx : x < 16) : (uniformTile c)[y][x] = c := by
  simp [uniformTile]

/-- The atlas depends on the launch only through the table's bytes and seven parameters (R176, R173). -/
theorem rasterisedAtlas_congr {l l' : Launch} (hoff : l'.cfg.charTableOffset = l.cfg.charTableOffset)
    (hn : l'.cfg.nChars = l.cfg.nChars) (hinv : l'.cfg.invOffset = l.cfg.invOffset) (hink : l'.cfg.ink = l.cfg.ink)
    (hpaper : l'.cfg.paper = l.cfg.paper) (hfill : l'.cfg.atlasFill = l.cfg.atlasFill)
    (hmsb : l'.cfg.glyphMsbLeft = l.cfg.glyphMsbLeft)
    (hb : ∀ n < 8 * l.cfg.nChars, romByte l' (l.cfg.charTableOffset + n) = romByte l (l.cfg.charTableOffset + n)) :
    rasterisedAtlas l' = rasterisedAtlas l := by
  have hbyte : ∀ k < l.cfg.nChars, ∀ y < 8, glyphByte l' k y = glyphByte l k y := by
    intro k hk y hy
    unfold glyphByte
    rw [hoff, glyphPx_eq, Nat.add_assoc]
    exact hb _ (by omega)
  have hbit : ∀ (v : Byte) (x : Nat), glyphBit l'.cfg v x = glyphBit l.cfg v x := fun v x => by
    unfold glyphBit
    rw [hmsb]
  have htile : ∀ k < l.cfg.nChars, ∀ a b : Colour, glyphTile l' k a b = glyphTile l k a b := by
    intro k hk a b
    apply Vector.ext; intro y hy
    apply Vector.ext; intro x hx
    rw [cellPx_eq] at hx hy
    rw [glyphTile_pixel _ _ _ _ _ _ hy hx, glyphTile_pixel _ _ _ _ _ _ hy hx, hbit, hbyte k hk (y / 2) (by omega)]
  have hfold : ∀ (codes : List Nat) (atlas : Atlas), (∀ k ∈ codes, k < l.cfg.nChars) →
      codes.foldl (paintCode l') atlas = codes.foldl (paintCode l) atlas := by
    intro codes
    induction codes with
    | nil => intros; rfl
    | cons k rest ih =>
      intro atlas hk
      have hp : paintCode l' atlas k = paintCode l atlas k := by
        unfold paintCode
        rw [hink, hpaper, hinv, htile k (hk k (List.mem_cons_self ..)), htile k (hk k (List.mem_cons_self ..))]
      rw [List.foldl_cons, List.foldl_cons, hp]
      exact ih _ fun c hc => hk c (List.mem_cons_of_mem _ hc)
  unfold rasterisedAtlas
  rw [hn, hfill]
  exact hfold _ _ fun k hk => List.mem_range.mp hk

/-! ### The display walk -/

theorem addr_add_ofNat (a : Addr) (m n : Nat) :
    a + BitVec.ofNat 16 m + BitVec.ofNat 16 n = a + BitVec.ofNat 16 (m + n) := by
  rw [BitVec.add_assoc, ← BitVec.ofNat_add]

theorem addr_succ_add_ofNat (a : Addr) (n : Nat) : a + 1 + BitVec.ofNat 16 n = a + BitVec.ofNat 16 (n + 1) := by
  rw [Nat.add_comm]
  exact addr_add_ofNat a 1 n

theorem walkColumns_length (s : State) (n : Nat) (cur : Addr) : (walkColumns s n cur).1.length = n := by
  induction n generalizing cur with
  | zero => rfl
  | succ n ih => simp [walkColumns, ih]

theorem walkColumns_snd (s : State) (n : Nat) (cur : Addr) :
    (walkColumns s n cur).2 = cur + BitVec.ofNat 16 n := by
  induction n generalizing cur with
  | zero => simp [walkColumns]
  | succ n ih =>
    simp only [walkColumns, ih, addr_succ_add_ofNat]

theorem walkColumns_getD (s : State) (n : Nat) (cur : Addr) (c : Nat) (hc : c < n) :
    (walkColumns s n cur).1.getD c 0 = s.readByte (cur + BitVec.ofNat 16 c) := by
  induction n generalizing cur c with
  | zero => omega
  | succ n ih =>
    cases c with
    | zero => simp [walkColumns]
    | succ c =>
      simp only [walkColumns, List.getD_cons_succ]
      rw [ih _ _ (by omega), addr_succ_add_ofNat]

/-- The byte of row `r` and column `c` of a walk that starts at `cur`: 33 bytes a row. -/
theorem displayByte_walkRows (s : State) (n : Nat) (cur : Addr) (r c : Nat) (hr : r < n) (hc : c < 32) :
    displayByte (walkRows s n cur) r c = s.readByte (cur + BitVec.ofNat 16 (33 * r + c)) := by
  induction n generalizing cur r with
  | zero => omega
  | succ n ih =>
    cases r with
    | zero =>
      have h := walkColumns_getD s Config.dispCols cur c (by simpa [Config.dispCols] using hc)
      simpa only [displayByte, walkRows, List.getD_cons_zero, Nat.mul_zero, Nat.zero_add] using h
    | succ r =>
      have h : displayByte (walkRows s (n + 1) cur) (r + 1) c =
          displayByte (walkRows s n ((walkColumns s Config.dispCols cur).2 + 1)) r c := rfl
      rw [h, ih _ _ (by omega), walkColumns_snd, addr_succ_add_ofNat, addr_add_ofNat]
      congr 3
      simp only [dispCols_eq]
      omega

end Sys2Proof.Machine
end

