-- ==== Sys2Proof/Laws/Reset.lean ====
section
/-! SUPPORT. RESET and the fatal failures: the three ways a session's start can end, and the reset contents of memory under
a legal launch. -/
namespace Sys2Proof.Machine

/-- Building the atlas: the rasterised one, or the failure (43_font_rasterizer R170, R177). -/
theorem buildAtlas_of_ok {s : State} (h : s.launch.atlasOk = true) :
    s.buildAtlas = { s with atlas := rasterisedAtlas s.launch } := by
  simp [State.buildAtlas, h]

theorem buildAtlas_of_fail {s : State} (h : s.launch.atlasOk = false) : s.buildAtlas = s.raiseFatalInit .atlas := by
  simp [State.buildAtlas, h]

/-- The start of a session when the host can do both of its steps (70_reset_and_hazards R254, R255, R257). -/
theorem initialise_of_ok {s : State} (hs : s.launch.surfaceOk = true) (ha : s.launch.atlasOk = true)
    (hp : s.phase ≠ .failed) :
    s.initialise = { s with atlas := rasterisedAtlas s.launch, phase := .runcpu } := by
  unfold State.initialise State.enterLoop
  rw [if_pos hs, buildAtlas_of_ok ha]
  exact if_neg hp

/-- The surface is tried first (60_exceptions R226 (a)). -/
theorem initialise_of_surface {s : State} (hs : s.launch.surfaceOk = false) :
    s.initialise = s.raiseFatalInit .surface := by
  simp [State.initialise, hs]

theorem initialise_of_atlas {s : State} (hs : s.launch.surfaceOk = true) (ha : s.launch.atlasOk = false) :
    s.initialise = s.raiseFatalInit .atlas := by
  simp [State.initialise, hs, buildAtlas_of_fail ha, State.enterLoop]

theorem beginSession_phase_ne (s : State) : s.beginSession.phase ≠ .failed := by
  rw [beginSession_phase]
  decide

/-- The bounds a legal configuration puts on the ROM regions (00_scope R8 (a), (b)). -/
theorem rom_bounds {l : Launch} (h : legalLaunch l = true) :
    l.cfg.romSize ≤ 0x4000 ∧ l.cfg.mirrorOffset + l.cfg.romSize ≤ 0x4000 ∧ l.cfg.romSize ≤ l.cfg.mirrorOffset := by
  simp only [legalLaunch, legalConfig, Bool.and_eq_true, decide_eq_true_eq] at h
  simp only [Config.protBoundary] at h
  omega

/-- The reset contents in the two copies of the ROM (10_state R21). -/
theorem resetByte_rom {l : Launch} {i : Nat} (hi : i < l.cfg.romSize) : resetByte l i = romByte l i := by
  simp [resetByte, hi]

theorem resetByte_mirror {l : Launch} (h : legalLaunch l = true) {i : Nat} (hi : i < l.cfg.romSize) :
    resetByte l (l.cfg.mirrorOffset + i) = romByte l i := by
  have hb := rom_bounds h
  unfold resetByte
  rw [if_neg (by omega), if_pos (by omega), Nat.add_sub_cancel_left]

end Sys2Proof.Machine
end

