-- ==== Sys2Proof/Tests/Slice0.lean ====
section
/-! SUPPORT. Tests with results taken from the spec (95_test_vectors, unless the comment says otherwise), the smoke test of
the well-formedness and launch checks, and a witness for every statement that has hypotheses. -/
namespace Sys2Proof.Tests
open Sys2Proof.Machine

-- One theorem after another: checking the slow ones side by side exhausts the threads.
set_option Elab.async false

/-! ### The test configuration (95_test_vectors, section 0) -/

/-- The character table of TROM: code 0 solid, code 1 the glyph of 43_font_rasterizer R178, the rest clear. -/
def tromGlyphs : List Byte :=
  List.replicate 8 0xFF ++ [0x00, 0x3C, 0x42, 0x42, 0x7E, 0x42, 0x42, 0x00] ++ List.replicate 496 0x00

/-- TROM. -/
def trom : List Byte := ((List.range 0x1E00).map fun i => BitVec.ofNat 8 (i % 251)) ++ tromGlyphs

/-- The default parameters with a frame budget. -/
def cfgBudget (budget : Nat) : Config := { standardConfig with frameBudget := budget }

/-- A launch with TROM. -/
def tLaunch : Launch := { standardLaunch with rom := trom }

/-- The state after a RESET with TROM. -/
def tState : State := { State.reset with launch := tLaunch, atlas := rasterisedAtlas tLaunch }

/-- The default launch with a frame budget. -/
def sLaunch (budget : Nat) : Launch := { standardLaunch with cfg := cfgBudget budget }

/-- A small state: a budget, the CPU core, the pending notifications. -/
def sState (budget : Nat) (cpu : CpuCore) (q : List Notification) : State :=
  { State.reset with launch := sLaunch budget, atlas := rasterisedAtlas (sLaunch budget), cpu := cpu, evq := q }

/-- A CPU core whose every step takes `cycles` and issues `ops`. -/
def steady (cyc cycles : Nat) (ops : List BusOp) : CpuCore where
  cyc := cyc
  state := 0
  moves := ops.mapIdx (fun i o => ⟨some o, cycles, i + 1, []⟩) ++ [⟨none, cycles, 0, []⟩]
  idle := cycles
  opsPerStep := ops.length
  results := []

/-- The matrix with eight row bytes, the dummy slot 0xFF. -/
def rows (a b c d e f g h : Byte) : Matrix := #v[a, b, c, d, e, f, g, h, 0xFF]

/-- A state with a matrix. -/
def kState (k : Matrix) : State := { State.reset with kbd := k }

/-- `f` of the next state, if there is one. -/
def onNext {α : Type} (f : State → α) : Host.Outcome State Fault Refusal → Option α
  | .next t => some (f t)
  | .fault _ => none
  | .refused _ => none

/-- The fault, if there is one. -/
def faultOf : Host.Outcome State Fault Refusal → Option Fault
  | .fault r => some r
  | _ => none

/-- The refusal, if there is one. -/
def refusalOf : Host.Outcome State Fault Refusal → Option Refusal
  | .refused r => some r
  | _ => none

/-! ### Well-formedness and the launch checks: each refuses an ill-formed term -/

theorem test_illformed_portinKbd : (Instr.portinKbd 0xFF 0xFE).wellFormed = false := by decide
theorem test_illformed_portinFloat : (Instr.portinFloat 0xFE 0xFE).wellFormed = false := by decide
theorem test_illegal_romSize :
    legalConfig { standardConfig with romSize := 0x4001, mirrorOffset := 0 } = false := by decide
/-- Z7. -/
theorem test_illegal_mirror_high : legalConfig { standardConfig with mirrorOffset := 0x2001 } = false := by decide
/-- Z6. -/
theorem test_illegal_mirror_overlap : legalConfig { standardConfig with mirrorOffset := 0x1000 } = false := by decide
theorem test_illegal_charTable : legalConfig { standardConfig with charTableOffset := 0x1E01 } = false := by decide
theorem test_illegal_inverse_overlap : legalConfig { standardConfig with invOffset := 63 } = false := by decide
theorem test_illegal_inverse_range : legalConfig { standardConfig with invOffset := 193 } = false := by decide
theorem test_illegal_colours : legalConfig { standardConfig with ink := standardConfig.paper } = false := by decide
theorem test_illegal_budget : legalConfig { standardConfig with frameBudget := 0 } = false := by decide
theorem test_illegal_noCodes : legalConfig { standardConfig with nChars := 0 } = false := by decide
theorem test_illegal_manyCodes :
    legalConfig { standardConfig with nChars := 129, invOffset := 129, charTableOffset := 0 } = false := by decide
theorem test_illegal_exitFail : legalConfig { standardConfig with exitFail := 0 } = false := by decide
theorem test_legal_standard : legalConfig standardConfig = true := by decide
/-- F9's parameter sets are legal. -/
theorem test_legal_F9 :
    legalConfig { standardConfig with nChars := 128, charTableOffset := 0x1C00 } = true ∧
    legalConfig { standardConfig with nChars := 1, invOffset := 255 } = true := by decide
/-- Z5: a ROM image of 8191 bytes, and of 8193. -/
theorem test_illegal_rom :
    refusalOf (exec .reset { State.reset with launch := { standardLaunch with rom := List.replicate 8191 0 } }) =
      some .illegalRom ∧
    refusalOf (exec .reset { State.reset with launch := { standardLaunch with rom := List.replicate 8193 0 } }) =
      some .illegalRom := by decide +kernel

/-! ### Decoding: words written out from 30_encoding R92 to R94, fields op, zero, hi, lo, d -/

theorem test_decode_read : decode 0b0000_0000_00010010_00110100_00000000 = .ok (.read 0x1234) := by decide
theorem test_decode_write : decode 0b0001_0000_00111111_11111111_10101010 = .ok (.write 0x3FFF 0xAA) := by decide
theorem test_decode_portinKbd :
    decode 0b0010_0000_01111101_11111110_00000000 = .ok (.portinKbd 0xFE 0x7D) := by decide
theorem test_decode_portinFloat :
    decode 0b0010_0000_11111110_11111111_00000000 = .ok (.portinFloat 0xFF 0xFE) := by decide
theorem test_decode_portout :
    decode 0b0011_0000_00010010_11111110_10000000 = .ok (.portout 0xFE 0x80 0x12) := by decide
theorem test_decode_keydown : decode 0b0100_0000_10111110_11101111_00000000 = .ok (.keydown 0xBEEF) := by decide
theorem test_decode_keyup : decode 0b0101_0000_00000000_01000100_00000000 = .ok (.keyup 0x0044) := by decide
theorem test_decode_quit : decode 0b0110_0000_00000000_00000000_00000000 = .ok .quit := by decide
theorem test_decode_decode : decode 0b0111_0000_00000000_00000000_00000000 = .ok .decode := by decide
theorem test_decode_rasterize : decode 0b1000_0000_00000000_00000000_00000000 = .ok .rasterize := by decide
theorem test_decode_reset : decode 0b1001_0000_00000000_00000000_00000000 = .ok .reset := by decide
theorem test_decode_frame : decode 0b1010_0000_00000000_00000000_00000000 = .ok .frame := by decide
theorem test_decode_runcpu : decode 0b1011_0000_00000000_00000000_00000000 = .ok .runcpu := by decide
theorem test_decode_drain : decode 0b1100_0000_00000000_00000000_00000000 = .ok .drain := by decide
theorem test_decode_pace : decode 0b1101_0000_00000000_00000000_00000000 = .ok .pace := by decide
/-- 2.8: the refused words. -/
theorem test_decode_refused :
    decode 0x00123401 = .error .operandFieldNonzero ∧ decode 0x01123400 = .error .zeroFieldNonzero ∧
    decode 0x20FEFE01 = .error .operandFieldNonzero ∧ decode 0x40000801 = .error .operandFieldNonzero ∧
    decode 0x60000100 = .error .operandFieldNonzero ∧ decode 0xE0000000 = .error .unassignedOp ∧
    decode 0xF0000000 = .error .unassignedOp := by decide
/-- Words of parts 2 and 3. -/
theorem test_encode :
    encode (.write 0x4148 0x01) = 0x10414801 ∧ encode (.portinKbd 0x00 0x7F) = 0x207F0000 ∧
    encode (.portinFloat 0x01 0x00) = 0x20000100 ∧ encode (.portout 0xFE 0xFF 0x00) = 0x3000FEFF ∧
    encode (.keydown 0x00F0) = 0x4000F000 ∧ encode .frame = 0xA0000000 := by decide
/-- 30_encoding R99, R100. -/
theorem test_trace_text :
    traceLine 0x0008 (.write 0x4000 0xAA) = "WRITE 0x4000, 0xAA" ∧ traceLine 0x0008 (.keydown 0x0008) = "KEYDOWN ERASE" ∧
    Pseudo.expand (.poke16 0x400C 0x4100) = [.write 0x400C 0x00, .write 0x400D 0x41] := by decide +kernel
theorem test_table_word :
    decodeTableWord 32 0xB0000000 = some .runcpu ∧ decodeTableWord 32 0x20000100 = some (.portinFloat 0x01 0x00) ∧
    decodeTableWord 32 0xE0000000 = none := by decide

/-! ### The step -/

/-- A presented word is fetched and performed. -/
theorem test_step_word (s : State) :
    step (State.reset.withFetchWord 32 0x60000000) =
      exec .quit { State.reset with phase := .drain } ∧
    step ({ s with phase := .halted, transport := [0x60000000] }) = .fault .halted := by
  exact ⟨rfl, rfl⟩

/-- A word that spells no operation is refused by name; QUIT is not enabled outside DRAIN (30_encoding R96). -/
theorem test_step_refused :
    refusalOf (step { State.reset with transport := [0xE0000000] }) = some (.undecodable .unassignedOp) ∧
    refusalOf (step { State.reset with transport := [0x60000000] }) = some (.notEnabled .runcpu) := by decide +kernel

/-- A notification of the host lands before the operation (10_state R39). -/
theorem test_arrival :
    onNext (fun t => (t.kbd[1], t.evq))
        (step { State.reset with phase := .drain, evq := [.keyDown 0x44], arrivals := [[.keyDown 0x41]] }) =
      some (0xFA, []) := by decide +kernel

/-! ### Bus -/

/-- B1 to B4. -/
theorem test_read_rom :
    tState.readByte 0x0000 = 0x00 ∧ tState.readByte 0x1234 = 0x8E ∧ tState.readByte 0x3234 = 0x8E ∧
    tState.readByte 0x3FFF = 0x00 := by decide +kernel
/-- B2, B3: the byte returned to the CPU core. -/
theorem test_read :
    onNext (fun t => t.cpu.results) (execAll [.read 0x1234, .read 0x1DFF] tState) = some [0x95, 0x8E] := by
  decide +kernel
/-- B6, B7: the boundary. -/
theorem test_write_boundary :
    onNext (fun t => t.cpu.results)
        (execAll [.write 0x3FFF 0xAA, .read 0x3FFF, .write 0x4000 0xAA, .read 0x4000] tState) =
      some [0xAA, 0x00] := by decide +kernel
/-- B10, B11: the top of memory, the last write wins; a write back of the reset value unlists the byte. -/
theorem test_write_top :
    onNext (fun t => (t.mem, t.readByte 0x0000))
        (execAll [.write 0xFFFF 0x01, .write 0x8000 0x11, .write 0x8000 0x22, .write 0xFFFF 0x00] tState) =
      some ([(0x8000, 0x22)], 0x00) := by decide +kernel

/-- The matrix of B13 to B24: the erase alias, D and B held. -/
def heldRows : Matrix := rows 0xFE 0xFB 0xFF 0xFF 0xFE 0xFF 0xFF 0xEF

/-- B14, B18, B20, B21, B22: lowest row wins, row 7, no row, another even port. -/
theorem test_portinKbd :
    onNext (fun t => t.cpu.results)
        (execAll [.portinKbd 0xFE 0xFC, .portinKbd 0xFE 0x7F, .portinKbd 0xFE 0x7D, .portinKbd 0xFE 0xFF,
          .portinKbd 0x00 0x7F] (kState heldRows)) =
      some [0xEF, 0xFF, 0xFB, 0xEF, 0xFE] := by decide +kernel
/-- B19, B13. -/
theorem test_portinKbd_all_rows :
    rowScan heldRows 0x00 = 0xFE ∧ rowScan heldRows 0xFE = 0xFE ∧ rowScan heldRows 0xEF = 0xFE := by decide +kernel
/-- B23, B24. -/
theorem test_portinFloat :
    onNext (fun t => t.cpu.results)
        (execAll [.portinFloat 0xFF 0xFE, .portinFloat 0x01 0x00] (kState heldRows)) = some [0xFF, 0xFF] := by
  decide +kernel
/-- B25, B27. -/
theorem test_portout :
    exec (.portout 0xFE 0x00 0x12) (kState heldRows) = .next (kState heldRows) := rfl

/-! ### Keyboard -/

/-- K1, K5, K7: a key, a code of no key, two keys of one row. -/
theorem test_keydown :
    onNext State.kbd (execAll [.keydown 0x44, .keydown 0xBEEF, .keydown 0x41] State.reset) =
      some (rows 0xFF 0xFA 0xFF 0xFF 0xFF 0xFF 0xFF 0xFF) := by decide +kernel
/-- K2, K3. -/
theorem test_keydown_erase :
    onNext State.kbd (execAll [.keydown 0x0008, .keydown 0x42] State.reset) =
      some (rows 0xFE 0xFF 0xFF 0xFF 0xFE 0xFF 0xFF 0xEF) := by decide +kernel
/-- K8, K12: another key of the row stays; half of the erase combination is undone. -/
theorem test_keyup :
    onNext State.kbd (exec (.keyup 0x44) (kState (rows 0xFF 0xFA 0xFF 0xFF 0xFF 0xFF 0xFF 0xFF))) =
      some (rows 0xFF 0xFE 0xFF 0xFF 0xFF 0xFF 0xFF 0xFF) ∧
    onNext State.kbd (exec (.keyup 0x30) (kState (rows 0xFE 0xFF 0xFF 0xFF 0xFE 0xFF 0xFF 0xFF))) =
      some (rows 0xFE 0xFF 0xFF 0xFF 0xFF 0xFF 0xFF 0xFF) := by decide +kernel
/-- K9: SHIFT still held, its bit released by the erase key. -/
theorem test_keyup_erase :
    onNext State.kbd (execAll [.keydown 0x10, .keydown 0x0008, .keyup 0x0008] State.reset) =
      some (rows 0xFF 0xFF 0xFF 0xFF 0xFF 0xFF 0xFF 0xFF) := by decide +kernel

/-! ### Display and font -/

/-- The memory of V7 to V17. -/
def pixelState : State :=
  { tState with mem := [(0x400D, 0x41), (0x4148, 0x01), (0x4149, 0x81), (0x4417, 0x40)] }

/-- V10, V13, V15: a normal tile, an inverse tile, a fill tile. -/
theorem test_decode_pixels :
    onNext (fun t => t.fb.map fun f => (f[34][84], f[34][96], f[383][511])) (exec .decode pixelState) =
      some (some (tLaunch.cfg.ink, tLaunch.cfg.ink, tLaunch.cfg.atlasFill)) := by decide +kernel
/-- V5: `D = 0xFFF0`; the walk wraps inside row 0, so cell (0, 16) is ROM byte 1; V1's cell (23, 31). -/
theorem test_decode_wrap :
    displayByte (displayCells { tState with mem := [(0x400C, 0xF0), (0x400D, 0xFF)] }) 0 16 = 0x01 ∧
    displayByte (displayCells pixelState) 23 31 = 0x40 := by decide +kernel

/-- F3, F6: tile 1's rows 2, 4 and 8 at their edges; tiles 64 and 255 are fill. -/
theorem test_rasterize :
    onNext (fun t => (t.atlas[1][2][4], t.atlas[1][2][12], t.atlas[1][9][13], t.atlas[129][4][2], t.atlas[64][0][0],
        t.atlas[255][15][15])) (exec .rasterize { State.reset with launch := tLaunch }) =
      some (tLaunch.cfg.ink, tLaunch.cfg.paper, tLaunch.cfg.ink, tLaunch.cfg.paper, tLaunch.cfg.atlasFill,
        tLaunch.cfg.atlasFill) := by decide +kernel
/-- F8: a glyph row 0x80 under both values of GLYPH_MSB_LEFT. -/
theorem test_rasterize_bit_order :
    glyphBit { standardConfig with glyphMsbLeft := false } 0x80 (14 / 2) = true ∧
    glyphBit { standardConfig with glyphMsbLeft := false } 0x80 0 = false ∧
    glyphBit standardConfig 0x80 (1 / 2) = true := by decide

/-! ### Scheduler -/

/-- S1, S3, S4: the loop ends at the first instruction boundary at or past the budget. -/
theorem test_runcpu :
    onNext (fun t => (t.cpu.cyc, t.phase)) (exec .runcpu (sState 10 (steady 100 4 []) [])) = some (112, .drain) ∧
    onNext (fun t => t.cpu.cyc) (exec .runcpu (sState 1 (steady 0 23 []) [])) = some 23 ∧
    onNext (fun t => t.cpu.cyc) (exec .runcpu (sState 8 (steady 0 4 []) [])) = some 8 := by decide +kernel
/-- S5: a CPU core whose steps add 0 cycles hangs the block. -/
theorem test_runcpu_hang : faultOf (exec .runcpu (sState 10 (steady 0 0 []) [.quit])) = some .cpuNotCounting := by
  decide +kernel
/-- S7, S9. -/
theorem test_drain :
    onNext (fun t => (t.kbd, t.evq, t.phase))
        (exec .drain { State.reset with phase := .drain, evq := [.keyDown 0x44, .keyDown 0x0008, .keyUp 0x44] }) =
      some (rows 0xFE 0xFF 0xFF 0xFF 0xFE 0xFF 0xFF 0xFF, [], .decode) ∧
    onNext State.kbd (exec .drain { State.reset with evq := [.keyUp 0x44, .keyDown 0x44] }) =
      some (rows 0xFF 0xFB 0xFF 0xFF 0xFF 0xFF 0xFF 0xFF) := by decide +kernel
/-- S10, S11: draining goes on after a Quit; other notifications do nothing. -/
theorem test_drain_quit :
    onNext (fun t => (t.kbd[1], t.quit)) (exec .drain { State.reset with evq := [.quit, .other, .keyDown 0x44] }) =
      some (0xFB, true) := by decide +kernel
/-- S12 and R199. -/
theorem test_quit :
    onNext State.quit (exec .quit { State.reset with quit := true }) = some true ∧
    onNext State.quit (exec .quit State.reset) = some true := by decide +kernel

/-- A state in PACE with an elapsed time. -/
def paceState (elapsed : Nat) (quit : Bool) : State :=
  { State.reset with phase := .pace, quit := quit, clock := ⟨100 + elapsed, 100, [], []⟩ }

/-- S13, S14, S15. -/
theorem test_pace :
    onNext (fun t => (t.clock.sleeps, t.phase)) (exec .pace (paceState 7 false)) = some ([13], .runcpu) ∧
    onNext (fun t => (t.clock.sleeps, t.phase)) (exec .pace (paceState 26 false)) = some ([], .runcpu) ∧
    onNext (fun t => (t.clock.sleeps, t.phase)) (exec .pace (paceState 20 false)) = some ([], .runcpu) := by
  decide +kernel
/-- S16. -/
theorem test_pace_quit : onNext State.phase (exec .pace (paceState 7 true)) = some .halted := by decide +kernel

/-- A CPU core that writes in its first step and reads the keyboard in its second, 4 cycles each. -/
def writeThenScan : CpuCore where
  cyc := 5
  state := 0
  moves := [⟨some (.write 0x400C 0x80), 4, 1, []⟩, ⟨none, 4, 2, []⟩, ⟨some (.portIn 0xFE 0xFE), 4, 3, []⟩, ⟨none, 4, 4, []⟩]
  idle := 4
  opsPerStep := 1
  results := []

/-- A CPU core whose one step reads 0x4000 and then writes 0x11 to 0x5000 if the byte is 0x07, 0x22 to 0x5001 if not. -/
def reacting : CpuCore where
  cyc := 0
  state := 0
  moves := [⟨some (.read 0x4000), 4, 2, [(0x07, 1)]⟩, ⟨some (.write 0x5000 0x11), 4, 3, []⟩,
    ⟨some (.write 0x5001 0x22), 4, 3, []⟩, ⟨none, 4, 0, []⟩]
  idle := 4
  opsPerStep := 2
  results := []

/-- R193: the second operation and its operands are decided by the byte the first returned. -/
theorem test_cpu_reacts :
    onNext (fun t => (t.readByte 0x5000, t.readByte 0x5001, t.cpu.results))
        (exec .runcpu { sState 4 reacting [] with mem := [(0x4000, 0x07)] }) = some (0x11, 0x00, [0x07]) ∧
    onNext (fun t => (t.readByte 0x5000, t.readByte 0x5001, t.cpu.results))
        (exec .runcpu { sState 4 reacting [] with mem := [(0x4000, 0x08)] }) = some (0x00, 0x22, [0x08]) := by
  decide +kernel

/-- R194, R195: a CPU core that counts in every second step only. -/
theorem test_runcpu_waits :
    onNext (fun t => t.cpu.cyc)
      (exec .runcpu (sState 8 ⟨0, 0, [⟨none, 0, 1, []⟩, ⟨none, 4, 0, []⟩], 0, 0, []⟩ [])) = some 8 := by decide +kernel

/-- P4's first frame: the key is still queued while the CPU core reads, and the pointer is half updated. -/
theorem test_frame :
    onNext (fun t => (t.cpu.results, t.kbd[0], t.cpu.cyc, t.readPointer, t.phase))
        (exec .frame { sState 8 writeThenScan [.keyDown 0x0008] with mem := [(0x400D, 0x41)] }) =
      some ([0xFF], 0xFE, 13, 0x4180, .runcpu) := by decide +kernel
/-- R207's second frame: both reads see the key; the request ends the run. -/
theorem test_frame_last :
    onNext (fun t => (t.cpu.results, t.kbd, t.quit, t.phase))
        (exec .frame { sState 8 (steady 8 4 [.portIn 0xFE 0xFE]) [.keyUp 0x0008, .quit] with
          kbd := rows 0xFE 0xFF 0xFF 0xFF 0xFE 0xFF 0xFF 0xFF }) =
      some ([0xFE, 0xFE], rows 0xFF 0xFF 0xFF 0xFF 0xFF 0xFF 0xFF 0xFF, true, .halted) := by decide +kernel

/-! ### Reset -/

/-- R46, R227: nothing of the session before survives, a pending Quit among it; the launch's own notifications are pending
(R39). -/
theorem test_reset_nothing_survives :
    onNext (fun t => (t.evq, t.cpu, t.clock.sleeps, t.quit))
        (exec .reset { sState 10 (steady 700 4 []) [.quit] with
          clock := ⟨90, 70, [3], [13]⟩, launches := [{ standardLaunch with pending := [.keyDown 0x44] }] }) =
      some ([.keyDown 0x44], standardLaunch.cpu, [], false) := by decide +kernel

/-- Z1, with a RAM_INIT byte. -/
theorem test_reset :
    onNext (fun t => (t.readByte 0x1234, t.readByte 0x3234, t.readByte 0x4000, t.kbd[8], t.quit, t.phase))
        (exec .reset { kState heldRows with
          quit := true, phase := .halted, mem := [(0x4000, 0x77)]
          launches := [{ tLaunch with ramInit := List.replicate 0x4000 0x00 ++ [0x99] }] }) =
      some (0x8E, 0x8E, 0x99, 0xFF, false, .runcpu) := by decide +kernel
/-- Z2, Z3, Z4. -/
theorem test_reset_failures :
    onNext (fun t => (t.phase, t.failure, t.exitStatus))
        (exec .reset { State.reset with launch := { standardLaunch with surfaceOk := false } }) =
      some (.failed, some .surface, some 1) ∧
    onNext (fun t => (t.phase, t.failure))
        (exec .reset { State.reset with launch := { standardLaunch with atlasOk := false } }) =
      some (.failed, some .atlas) ∧
    onNext (fun t => t.failure)
        (exec .reset { State.reset with launch := { standardLaunch with surfaceOk := false, atlasOk := false } }) =
      some (some .surface) := by decide +kernel

/-! ### Witnesses: for each statement with hypotheses (Obligations.<Name>), a concrete state and operands that meet them,
for each of its clauses at a boundary value -/

/-- A running session whose CPU core counts 4 cycles a step, with a budget of 8. -/
def wState : State := sState 8 (steady 0 4 []) []

theorem sLaunch_legal : legalLaunch (sLaunch 8) = true := by decide +kernel
theorem tLaunch_legal : legalLaunch tLaunch = true := by decide +kernel
theorem wState_progress : wState.cpuProgress = true := by decide

theorem wState_sound : wState.Sound where
  memory := rfl
  launched := fun _ => ⟨sLaunch_legal, rfl, rfl⟩
  protectedKept := fun _ c hc => nomatch hc
  matrixHigh := fun _ => by decide
  matrixDummy := fun _ => rfl
  atlasBuilt := fun _ => rfl
  noFailure := fun _ => ⟨rfl, rfl⟩
  haltedByQuit := fun h => nomatch h
  failedReported := fun h => nomatch h

theorem witness_DecodeOfEncode :
    (Instr.portinKbd 0xFE 0x00).wellFormed = true ∧ (Instr.portinFloat 0x01 0xFF).wellFormed = true := by decide
theorem witness_EncodeOfDecode : decode 0x30FF0180 = .ok (.portout 0x01 0x80 0xFF) := by decide
theorem witness_DecodingIsTotalAndDisjoint :
    (tableRows[2]!).hits 0x20FEFE00 = true ∧ decode 0x20FEFE00 = .ok (.portinKbd 0xFE 0xFE) ∧
    (∀ r ∈ tableRows, r.hits 0xF0000000 = false) ∧
    { State.reset with transport := [0xF0000000] }.transport = 0xF0000000 :: [] := by decide +kernel
/-- Each clause: RESET in HALTED and FAILED, the scheduler's operations in their phase, READ in DECODE and in INIT. -/
theorem witness_StepPerformsDecodedWord :
    { State.reset with phase := .halted, transport := [0x90000000] }.transport = 0x90000000 :: [] ∧
    decode 0x90000000 = .ok .reset ∧ decode 0xA0000000 = .ok .frame ∧ decode 0xB0000000 = .ok .runcpu ∧
    State.reset.phase = .runcpu ∧ decode 0xC0000000 = .ok .drain ∧ decode 0x60000000 = .ok .quit ∧
    decode 0xD0000000 = .ok .pace ∧ decode 0x00123400 = .ok (.read 0x1234) ∧
    Instr.read 0x1234 ∉ [.frame, .runcpu, .drain, .quit, .pace] ∧ Phase.decode ≠ .halted ∧ Phase.init ≠ .failed := by
  decide +kernel
/-- R191, R227: a RESET presented in FAILED is performed. -/
theorem test_reset_leaves_failed :
    onNext State.phase (step { State.reset with
      phase := .failed, failure := some .atlas, exitStatus := some 1, transport := [0x90000000] }) = some .runcpu := by
  decide +kernel
theorem witness_StepPerformsSequencerPhase (p : Phase) :
    { State.reset with phase := p }.transport = [] ∧ { State.reset with phase := p }.phase = p := ⟨rfl, rfl⟩
theorem witness_DisabledOperationStops (p : Phase) :
    { State.reset with phase := p, transport := [0x60000000, 0xA0000000] }.transport = 0x60000000 :: [0xA0000000] ∧
    { State.reset with phase := p, transport := [0x60000000, 0xA0000000] }.phase = p ∧
    decode 0x60000000 = .ok .quit ∧ decode 0xA0000000 = .ok .frame ∧ decode 0xD0000000 = .ok .pace ∧
    Phase.runcpu ≠ .drain ∧ Phase.drain ≠ .runcpu ∧ Phase.runcpu ≠ .pace := by
  exact ⟨rfl, rfl, by decide, by decide, by decide, by decide, by decide, by decide⟩
theorem witness_EndedRunPerformsNothing :
    { State.reset with phase := .halted }.transport = [] ∧ { State.reset with phase := .failed }.transport = [] :=
  ⟨rfl, rfl⟩
theorem witness_WriteStoresAboveBoundary :
    0x4000 ≤ (0x4000 : Addr).toNat ∧ (0x3FFF : Addr).toNat < 0x4000 ∧ (0x3FFF : Addr) ≠ 0x4000 := by decide
theorem witness_WriteSameByteChangesNothing :
    Memory.wf tState.launch [(0x4000, 0xAA), (0xFFFF, 0x01)] = true := by decide +kernel
theorem witness_PortinKbdReturnsLowestRow :
    ((0x7F : Byte).getLsbD 7 = false ∧ ∀ q : Fin 8, q < 7 → (0x7F : Byte).getLsbD q.val = true) ∧
    ((0xFE : Byte).getLsbD 0 = false ∧ ∀ q : Fin 8, q < 0 → (0xFE : Byte).getLsbD q.val = true) ∧
    (∀ row : Fin 8, matrixRow heldRows row &&& 0xE0 = 0xE0) := by decide
theorem witness_KeydownClearsDrivenBits :
    keyTableEntry standardConfig 0x42 = some (7, 4) ∧ keyTableEntry standardConfig 0x10 = some (0, 0) ∧
    keyTableEntry standardConfig 0x00F0 = none ∧ (0x42 : KeyId) ≠ standardConfig.eraseKey ∧
    (0x10 : KeyId) ≠ standardConfig.eraseKey ∧ (0x00F0 : KeyId) ≠ standardConfig.eraseKey := by decide +kernel
theorem witness_KeyOperationsIdempotent :
    ∀ b ∈ drivenBits State.reset.launch.cfg 0x0008, matrixBit State.reset.kbd b.1 b.2.val = true := by decide +kernel
theorem witness_KeyOperationsTouchOnlyDrivenBits :
    (∃ b ∈ drivenBits standardConfig 0x42, b.1 = 7 ∧ b.2.val = 4) ∧
    ¬ ∃ b ∈ drivenBits standardConfig 0x42, b.1 = 7 ∧ b.2.val = 5 := by decide +kernel
theorem witness_SharedBitReleasesEarly :
    (0x10 : KeyId) ≠ State.reset.launch.cfg.eraseKey ∧
    keyTableEntry State.reset.launch.cfg 0x10 = some (0, 0) := by decide +kernel
/-- The other clauses of R262: a bit two keys drive, the second key driving that bit only; the ordinary key at (4, 0). -/
theorem witness_SharedBitReleasesEarly_general :
    ((0, 0) ∈ drivenBits State.reset.launch.cfg 0x0008 ∧ drivenBits State.reset.launch.cfg 0x10 = [(0, 0)]) ∧
    (0x30 : KeyId) ≠ State.reset.launch.cfg.eraseKey ∧
    keyTableEntry State.reset.launch.cfg 0x30 = some (4, 0) := by decide +kernel
/-- Key events of A, D (pressed and released) and the erase key: no two keys share a bit. -/
def wEvents : List KeyEvent := [(0x41, true), (0x44, true), (0x44, false), (0x0008, true)]

theorem witness_MatrixShowsHeldKeys :
    State.reset.kbd = Vector.replicate 9 0xFF ∧ NoSharedBit standardConfig wEvents := by
  have h : (wEvents.all fun e => wEvents.all fun f => e.1 == f.1 ||
      (drivenBits standardConfig e.1).all fun b => !(drivenBits standardConfig f.1).contains b) = true := by
    decide +kernel
  refine ⟨rfl, fun e he f hf hne b hb hb' => ?_⟩
  have h1 := List.all_eq_true.mp (List.all_eq_true.mp h e he) f hf
  rw [beq_eq_false_iff_ne.mpr hne, Bool.false_or] at h1
  have h2 := List.all_eq_true.mp h1 b hb
  rw [List.contains_iff_mem.mpr hb'] at h2
  cases h2
theorem witness_CellAddressClosedForm : 23 < 24 ∧ 31 < 32 := by decide
theorem witness_DecodeFrame :
    { wState with phase := .decode }.phase = .decode ∧ wState.phase ≠ .decode := ⟨rfl, by decide⟩
/-- `pixelState` with the skipped byte at `D` set (V19). -/
def skippedState : State :=
  { tState with mem := [(0x400D, 0x41), (0x4100, 0x01), (0x4148, 0x01), (0x4149, 0x81), (0x4417, 0x40)] }

theorem witness_DecodeFootprint :
    skippedState.atlas = pixelState.atlas ∧
    skippedState.launch.cfg.dfilePtrAddr = pixelState.launch.cfg.dfilePtrAddr ∧
    skippedState.readByte pixelState.launch.cfg.dfilePtrAddr =
      pixelState.readByte pixelState.launch.cfg.dfilePtrAddr ∧
    skippedState.readByte (pixelState.launch.cfg.dfilePtrAddr + 1) =
      pixelState.readByte (pixelState.launch.cfg.dfilePtrAddr + 1) ∧
    ∀ r < 24, ∀ c < 32,
      skippedState.readByte (cellAddr pixelState.readPointer r c) =
        pixelState.readByte (cellAddr pixelState.readPointer r c) := by
  refine ⟨rfl, rfl, ?_, ?_, ?_⟩ <;> decide +kernel

/-- T10's memory: the pointer at 0x4100, zeros there. -/
def solidState : State := { tState with mem := [(0x400D, 0x41)] }

theorem witness_SolidGlyphFillsScreen :
    legalLaunch solidState.launch = true ∧ solidState.atlas = rasterisedAtlas solidState.launch ∧
    (∀ y < 8, romByte solidState.launch (solidState.launch.cfg.charTableOffset + y) = 0xFF) ∧
    (∀ r < 24, ∀ c < 32, solidState.readByte (cellAddr solidState.readPointer r c) = 0) := by
  refine ⟨tLaunch_legal, rfl, ?_, ?_⟩ <;> decide +kernel
theorem witness_RasterizePaintsGlyphs :
    legalLaunch tState.launch = true ∧ tState.launch.atlasOk = true ∧ 63 < tState.launch.cfg.nChars ∧
    63 + tState.launch.cfg.invOffset < 256 := ⟨tLaunch_legal, rfl, by decide, by decide⟩
theorem witness_RasterizeFillsOtherTiles :
    (tState.launch.cfg.nChars ≤ 64 ∧
      ¬ (tState.launch.cfg.invOffset ≤ 64 ∧ 64 < tState.launch.cfg.invOffset + tState.launch.cfg.nChars)) ∧
    (tState.launch.cfg.nChars ≤ 255 ∧
      ¬ (tState.launch.cfg.invOffset ≤ 255 ∧ 255 < tState.launch.cfg.invOffset + tState.launch.cfg.nChars)) := by
  decide
/-- Another budget, key table, pointer address and erase key, and another ROM below the table. -/
def otherLaunch : Launch :=
  { tLaunch with
    cfg := { standardConfig with frameBudget := 8, keyTable := [], dfilePtrAddr := 0x5000, eraseKey := 0x0007 }
    rom := List.replicate 0x1E00 0x55 ++ tromGlyphs }

theorem getD_prefix (p : List Byte) (hp : p.length = 0x1E00) (n : Nat) :
    (p ++ tromGlyphs).getD (0x1E00 + n) 0 = tromGlyphs.getD n 0 := by
  rw [List.getD_append_right _ _ _ _ (by omega), hp, Nat.add_sub_cancel_left]

theorem otherLaunch_legal : legalLaunch otherLaunch = true := by decide +kernel

theorem witness_RasterizeIsDeterministic :
    legalLaunch tLaunch = true ∧ legalLaunch otherLaunch = true ∧ otherLaunch.cfg ≠ tLaunch.cfg ∧
    romByte otherLaunch 0 ≠ romByte tLaunch 0 ∧ otherLaunch.cfg.nChars = tLaunch.cfg.nChars ∧
    ∀ n < 8 * tLaunch.cfg.nChars, romByte otherLaunch (tLaunch.cfg.charTableOffset + n) =
      romByte tLaunch (tLaunch.cfg.charTableOffset + n) := by
  refine ⟨tLaunch_legal, otherLaunch_legal, by decide, by decide +kernel, rfl, fun n _ => ?_⟩
  exact (getD_prefix _ (by rw [List.length_replicate]) n).trans
    (getD_prefix _ (by rw [List.length_map, List.length_range]) n).symm
theorem witness_RuncpuStopsAtBudget :
    1 ≤ wState.launch.cfg.frameBudget ∧
    (∃ n, wState.launch.cfg.frameBudget ≤ (State.cpuStep^[n] wState).cpu.cyc - wState.cpu.cyc) ∧
    (sState 4 reacting []).cpu.move.op = some (.read 0x4000) ∧ wState.cpu.move.op = none :=
  ⟨by decide, (cpuProgress_iff _).mp wState_progress, by decide, by decide⟩
/-- Either side of the equivalence holds somewhere: S5, and S4's core. -/
theorem witness_RuncpuHangsWithoutProgress :
    (sState 10 (steady 0 0 []) []).cpuProgress = false ∧ wState.cpuProgress = true := by decide
/-- The last clause: a core whose every step raises CYC. -/
theorem witness_RuncpuHangsWithoutProgress_counting {s : State} (hs : s.cpu = steady 0 4 []) (n : Nat) :
    (State.cpuStep^[n] s).cpu.cyc < (State.cpuStep^[n + 1] s).cpu.cyc := by
  have h := iterate_cyc_of_alwaysCounts (s := State.cpuStep^[n] s) (by
    have hc := SameCore.iterate_cpuStep n s
    unfold CpuCore.alwaysCounts
    rw [hc.idle, hc.moves, hs]
    decide) 1
  rw [Nat.add_comm n 1, Function.iterate_add_apply]
  exact h
theorem witness_RuncpuOvershootsByLessThanOneStep :
    1 ≤ wState.launch.cfg.frameBudget ∧ wState.cpu.idle ≤ 4 ∧ (∀ x ∈ wState.cpu.moves, x.cycles ≤ 4) ∧
    exec .runcpu wState = .next wState.cpuPhase :=
  ⟨by decide, by decide, by decide, runCpu_of_progress wState_progress⟩
theorem witness_ProgramChangesOnlyMemory :
    exec .runcpu wState = .next wState.cpuPhase ∧ (0x3FFF : Addr).toNat < 0x4000 ∧
    ∀ x ∈ wState.cpu.moves, ∀ v, x.op ≠ some (.write 0xFFFF v) := by
  refine ⟨runCpu_of_progress wState_progress, by decide, ?_⟩
  have h : ∀ x ∈ wState.cpu.moves, x.op = none := by decide
  intro x hx v hv
  rw [h x hx] at hv
  cases hv
theorem witness_ProgramCannotReadTheRest :
    SameForProgram wState { wState with quit := true, evq := [.quit] } ∧
    exec .runcpu wState = .next wState.cpuPhase :=
  ⟨⟨rfl, rfl, rfl, rfl⟩, runCpu_of_progress wState_progress⟩
theorem witness_DrainDetectsTermination (s : State) : exec .drain s = .next s.drainQueue := rfl
theorem witness_PressReleaseInOneDrainInvisible :
    { wState with evq := [.keyDown 0x44, .keyUp 0x44] }.evq = [.keyDown 0x44, .keyUp 0x44] ∧
    ∀ b ∈ drivenBits wState.launch.cfg 0x44, matrixBit wState.kbd b.1 b.2.val = true := by decide +kernel
theorem witness_NothingClearsQuit :
    Instr.drain ≠ .reset ∧ exec .drain { wState with quit := true } = .next { wState with quit := true }.drainQueue ∧
    { wState with quit := true }.quit = true := ⟨by decide, rfl, rfl⟩
theorem witness_PaceSleepsAndTestsQuit :
    (paceState 19 true).clock.now - (paceState 19 true).clock.t0 < 20 ∧
    20 ≤ (paceState 20 false).clock.now - (paceState 20 false).clock.t0 ∧
    (paceState 19 true).quit = true ∧ (paceState 20 false).quit = false := by decide
theorem witness_FrameCompletesAndHaltsOnRequest :
    wState.cpuProgress = true ∧ { wState with evq := [.quit] }.cpuProgress = true := by decide
theorem witness_FourStepsAreOneFrame :
    wState.phase = .runcpu ∧ wState.transport = [] ∧ wState.arrivals = [] := ⟨rfl, rfl, rfl⟩
theorem witness_PhaseTransitionsComplete :
    step { wState with phase := .drain } = .next { wState with phase := .drain }.deliver.drainQueue := rfl
theorem witness_ResetLeavesSpecifiedValues :
    tLaunch = { wState with launches := [tLaunch] }.launches.headD wState.launch ∧ legalLaunch tLaunch = true ∧
    tLaunch.surfaceOk = true ∧ tLaunch.atlasOk = true := ⟨rfl, tLaunch_legal, rfl, rfl⟩
theorem witness_ResetCopiesRomTwice :
    exec .reset tState = .next tState.beginSession.initialise ∧ tState.beginSession.initialise.phase = .runcpu ∧
    0x1FFF < tState.beginSession.launch.cfg.romSize := by
  have h : tState.beginSession.launch = tLaunch := rfl
  refine ⟨by rw [exec_reset, h, ifLegalLaunch_of_legal tLaunch_legal], ?_, by rw [h]; decide⟩
  exact congrArg State.phase (initialise_of_ok (congrArg Launch.surfaceOk h) (congrArg Launch.atlasOk h)
    (beginSession_phase_ne _))
theorem witness_FailedResetReports :
    legalLaunch { tLaunch with surfaceOk := false } = true ∧ legalLaunch { tLaunch with atlasOk := false } = true :=
  ⟨tLaunch_legal, tLaunch_legal⟩
theorem witness_FailedRasterizeReports :
    legalLaunch { tLaunch with atlasOk := false } = true ∧ { tLaunch with atlasOk := false }.atlasOk = false :=
  ⟨tLaunch_legal, rfl⟩
theorem witness_IllegalLaunchRefused :
    refusalOf (exec .rasterize { wState with launch := { standardLaunch with
      cfg := { standardConfig with mirrorOffset := 0x1000 } } }) = some .illegalConfig ∧
    refusalOf (exec .rasterize { wState with launch := { standardLaunch with rom := List.replicate 8191 0 } }) =
      some .illegalRom ∧
    refusalOf (exec .reset { wState with launches := [{ standardLaunch with rom := List.replicate 8193 0 }] }) =
      some .illegalRom := by decide +kernel
theorem witness_StepKeepsSound :
    wState.Sound ∧ step wState = .next wState.deliver.cpuPhase := by
  refine ⟨wState_sound, ?_⟩
  show wState.deliver.runCpu = _
  exact runCpu_of_progress wState_progress
theorem witness_RomAndMirrorNeverDiverge :
    wState.Sound ∧ core.run 1 wState = .next wState.deliver.cpuPhase ∧ wState.deliver.cpuPhase.live = true ∧
    0x1FFF < wState.launch.cfg.romSize := by
  refine ⟨wState_sound, ?_, rfl, by decide⟩
  rw [core_run_succ, witness_StepKeepsSound.2]
  rfl
theorem witness_NothingFailsOnceRunning :
    wState.Sound ∧ wState.live = true ∧ wState.cpuProgress = true ∧ Instr.rasterize ≠ .reset :=
  ⟨wState_sound, rfl, wState_progress, by decide⟩
theorem witness_RunningBlockNeverStops :
    wState.Sound ∧ wState.live = true ∧ wState.phase ≠ .halted ∧ wState.transport = [] ∧ wState.cpuProgress = true :=
  ⟨wState_sound, rfl, by decide, rfl, wState_progress⟩
/-- An even port other than 0xFE; a POKE16 at the last address, at the boundary, and at the pointer. -/
theorem witness_PseudoOperationsExpand :
    (0x00 : Byte).getLsbD 0 = false ∧ 0x4000 ≤ (0xFFFF : Addr).toNat ∧ (0xFFFF : Addr) + 1 = 0 ∧
    ¬ 0x4000 ≤ (0x3FFF : Addr).toNat ∧ 0x4000 ≤ ((0x3FFF : Addr) + 1).toNat ∧
    0x4000 ≤ tState.launch.cfg.dfilePtrAddr.toNat ∧ tState.launch.cfg.dfilePtrAddr ≠ 0xFFFF := by decide

end Sys2Proof.Tests
end

section
/-! Proofs about the implementation parameters (00_scope R7, R8): which launches RESET and RASTERIZE refuse. -/
namespace Sys2Proof.Machine

/-- `legalConfig` in the numbers of 00_scope R8 and R7. -/
theorem legalConfig_iff {c : Config} :
    legalConfig c = true ↔
      c.romSize ≤ 0x4000 ∧ c.mirrorOffset + c.romSize ≤ 0x4000 ∧ c.romSize ≤ c.mirrorOffset ∧
      c.charTableOffset + 8 * c.nChars ≤ c.romSize ∧ c.nChars ≤ c.invOffset ∧ c.invOffset + c.nChars ≤ 256 ∧
      c.ink ≠ c.paper ∧ 1 ≤ c.frameBudget ∧ 1 ≤ c.nChars ∧ c.nChars ≤ 128 ∧ c.exitFail ≠ 0 := by
  have hbound : Config.protBoundary = 0x4000 := rfl
  have hglyph : Config.glyphPx = 8 := rfl
  have htiles : Config.nTiles = 256 := rfl
  simp only [legalConfig, hbound, hglyph, htiles, Bool.and_eq_true, decide_eq_true_eq, bne_iff_ne, and_assoc]

theorem legalRom_iff {l : Launch} : legalRom l = true ↔ l.rom.length = l.cfg.romSize := by
  simp only [legalRom, beq_iff_eq]

theorem ifLegalLaunch_eq_illegalConfig_iff {l : Launch} {s : State} :
    ifLegalLaunch l s = .refused .illegalConfig ↔ ¬ legalConfig l.cfg = true := by
  cases hc : legalConfig l.cfg with
  | false => simp [ifLegalLaunch, hc]
  | true => cases hr : legalRom l <;> simp [ifLegalLaunch, hc, hr]

/-- The ROM image is looked at only under a legal configuration. -/
theorem ifLegalLaunch_eq_illegalRom_iff {l : Launch} {s : State} :
    ifLegalLaunch l s = .refused .illegalRom ↔ legalConfig l.cfg = true ∧ ¬ legalRom l = true := by
  cases hc : legalConfig l.cfg with
  | false => simp [ifLegalLaunch, hc]
  | true => cases hr : legalRom l <;> simp [ifLegalLaunch, hc, hr]

/-- RESET checks the launch it begins with, RASTERIZE that of the running session. -/
theorem exec_eq_ifLegalLaunch {s : State} {l : Launch} {i : Instr}
    (h : (i = .reset ∧ l = s.launches.headD s.launch) ∨ (i = .rasterize ∧ l = s.launch)) :
    ∃ t, exec i s = ifLegalLaunch l t := by
  obtain ⟨rfl, rfl⟩ | ⟨rfl, rfl⟩ := h
  · exact ⟨_, exec_reset s⟩
  · exact ⟨_, exec_rasterize s⟩

/-- Settles O53: both operations are `ifLegalLaunch` of their launch, whose three outcomes are told apart by the
configuration first and the ROM image second. -/
theorem illegalLaunchRefused : Obligations.IllegalLaunchRefused := by
  intro s l i hi
  obtain ⟨t, ht⟩ := exec_eq_ifLegalLaunch hi
  rw [ht, ifLegalLaunch_eq_illegalConfig_iff, ifLegalLaunch_eq_illegalRom_iff]
  refine ⟨not_congr legalConfig_iff, fun hconfig => ?_⟩
  have hlegal : legalConfig l.cfg = true := of_not_not (mt ifLegalLaunch_eq_illegalConfig_iff.mpr hconfig)
  refine ⟨?_, fun hrom => ⟨t, ifLegalLaunch_of_legal ?_ t⟩⟩
  · rw [and_iff_right hlegal, legalRom_iff]
  · rw [legalLaunch, hlegal, legalRom_iff.mpr hrom, Bool.and_self]

end Sys2Proof.Machine
end

section
/-! Proofs about the state (10_state): what the sequencer performs with no word presented, the invariant every step keeps,
the ROM and its mirror, `quit`, and the keys a matrix shows held. -/
namespace Sys2Proof.Machine

/-! ### What an operation of a running session keeps -/

/-- `t` is `s` after an operation that begins no session and raises no failure, the phase left open: the session and its
report are the same, `quit` is not cleared (10_state R35), and memory, the protected range, the matrix's fixed bits and the
atlas are as sound as they were. -/
structure SessionKept (s t : State) : Prop where
  launch : t.launch = s.launch
  exitStatus : t.exitStatus = s.exitStatus
  failure : t.failure = s.failure
  quit : s.quit = true → t.quit = true
  memory : Memory.wf s.launch s.mem = true → Memory.wf t.launch t.mem = true
  protectedKept : (∀ c ∈ s.mem, Config.protBoundary ≤ c.1) → ∀ c ∈ t.mem, Config.protBoundary ≤ c.1
  matrixHigh : ∀ row : Row, matrixRow s.kbd row &&& 0xE0 = 0xE0 → matrixRow t.kbd row &&& 0xE0 = 0xE0
  matrixDummy : t.kbd[8] = s.kbd[8]
  atlasBuilt : s.atlas = rasterisedAtlas s.launch → t.atlas = rasterisedAtlas t.launch

/-- An update of none of the fields a sound state is about. -/
theorem SessionKept.of_fields {s t : State} (hlaunch : t.launch = s.launch) (hexit : t.exitStatus = s.exitStatus)
    (hfailure : t.failure = s.failure) (hquit : t.quit = s.quit) (hmem : t.mem = s.mem) (hkbd : t.kbd = s.kbd)
    (hatlas : t.atlas = s.atlas) : SessionKept s t where
  launch := hlaunch
  exitStatus := hexit
  failure := hfailure
  quit h := hquit.trans h
  memory h := by rwa [hlaunch, hmem]
  protectedKept h := by rwa [hmem]
  matrixHigh row h := by rwa [hkbd]
  matrixDummy := by rw [hkbd]
  atlasBuilt h := by rwa [hatlas, hlaunch]

theorem SessionKept.refl (s : State) : SessionKept s s := .of_fields rfl rfl rfl rfl rfl rfl rfl

theorem SessionKept.trans {s t u : State} (h : SessionKept s t) (h' : SessionKept t u) : SessionKept s u where
  launch := h'.launch.trans h.launch
  exitStatus := h'.exitStatus.trans h.exitStatus
  failure := h'.failure.trans h.failure
  quit := h'.quit ∘ h.quit
  memory := h'.memory ∘ h.memory
  protectedKept := h'.protectedKept ∘ h.protectedKept
  matrixHigh row := h'.matrixHigh row ∘ h.matrixHigh row
  matrixDummy := h'.matrixDummy.trans h.matrixDummy
  atlasBuilt := h'.atlasBuilt ∘ h.atlasBuilt

theorem SessionKept.setCpu (s : State) (c : CpuCore) : SessionKept s { s with cpu := c } :=
  .of_fields rfl rfl rfl rfl rfl rfl rfl

/-- A bus write lists no address below PROT_BOUNDARY (40_bus_adapter R112). -/
theorem mem_busWrite {s : State} {a : Addr} {v : Byte} {c : Host.Cell} (h : c ∈ (s.busWrite a v).mem) :
    c ∈ s.mem ∨ Config.protBoundary ≤ c.1 := by
  unfold State.busWrite at h
  split at h
  · exact .inl h
  · next ha =>
    rw [storeByte_mem, memWrite] at h
    split at h
    · exact .inl (List.mem_filter.mp h).1
    · obtain rfl | h := mem_insertCell h
      · exact .inr (Nat.not_lt.mp ha)
      · exact .inl h

theorem SessionKept.busWrite (s : State) (a : Addr) (v : Byte) : SessionKept s (s.busWrite a v) where
  launch := busWrite_launch s a v
  exitStatus := busWrite_exitStatus s a v
  failure := busWrite_failure s a v
  quit h := (busWrite_quit s a v).trans h
  memory h := Memory.wf_busWrite h a v
  protectedKept h c hc := (mem_busWrite hc).elim (h c) id
  matrixHigh row h := by rwa [busWrite_kbd]
  matrixDummy := by rw [busWrite_kbd]
  atlasBuilt h := by rwa [busWrite_atlas, busWrite_launch]

theorem SessionKept.busOp (s : State) (o : BusOp) : SessionKept s (s.busOp o) := by
  cases o with
  | read a => exact .setCpu s _
  | write a v => exact .busWrite s a v
  | portIn p r =>
    simp only [State.busOp]
    split
    · exact .setCpu s _
    · exact .setCpu s _
  | portOut p v => exact .refl s

theorem SessionKept.cpuPhase (s : State) : SessionKept s s.cpuPhase := by
  have hstep (t : State) (h : SessionKept s t) : SessionKept s t.cpuStep :=
    cpuStep_induct (P := SessionKept s) (fun u o hu => hu.trans (.busOp u o)) (fun u c hu => hu.trans (.setCpu u c)) h
  have hstart : SessionKept s s.startTimer := .of_fields rfl rfl rfl rfl rfl rfl rfl
  have hloop := cpuLoop_induct hstep s.cpu.cyc s.cpuFuel hstart
  exact hloop.trans (.of_fields rfl rfl rfl rfl rfl rfl rfl)

theorem SessionKept.setKbd (s : State) {k : Matrix}
    (hhigh : ∀ row : Row, matrixRow s.kbd row &&& 0xE0 = 0xE0 → matrixRow k row &&& 0xE0 = 0xE0)
    (hdummy : k[8] = s.kbd[8]) : SessionKept s { s with kbd := k } where
  launch := rfl
  exitStatus := rfl
  failure := rfl
  quit := id
  memory := id
  protectedKept := id
  matrixHigh := hhigh
  matrixDummy := hdummy
  atlasBuilt := id

/-- Key operations never touch bits 7 to 5 of a row or the dummy slot (10_state R24, R25). -/
theorem SessionKept.pressKey (s : State) (k : KeyId) : SessionKept s (s.pressKey k) :=
  .setKbd s (fun _ => highBits_foldl_pressBit _) (foldl_pressBit_dummy _ _)

theorem SessionKept.releaseKey (s : State) (k : KeyId) : SessionKept s (s.releaseKey k) :=
  .setKbd s (fun _ => highBits_foldl_releaseBit _) (foldl_releaseBit_dummy _ _)

theorem SessionKept.setQuit (s : State) : SessionKept s s.setQuit where
  launch := rfl
  exitStatus := rfl
  failure := rfl
  quit _ := rfl
  memory := id
  protectedKept := id
  matrixHigh _ := id
  matrixDummy := rfl
  atlasBuilt := id

theorem SessionKept.notify (s : State) (n : Notification) : SessionKept s (s.notify n) := by
  cases n with
  | keyDown k => exact .pressKey s k
  | keyUp k => exact .releaseKey s k
  | quit => exact .setQuit s
  | other => exact .refl s

theorem SessionKept.foldl_notify (q : List Notification) (s : State) : SessionKept s (q.foldl State.notify s) := by
  induction q generalizing s with
  | nil => exact .refl s
  | cons n rest ih => exact (SessionKept.notify s n).trans (ih _)

theorem SessionKept.drainQueue (s : State) : SessionKept s s.drainQueue :=
  (SessionKept.foldl_notify s.evq s).trans (.of_fields rfl rfl rfl rfl rfl rfl rfl)

theorem SessionKept.displayPass (s : State) : SessionKept s s.displayPass := by
  apply SessionKept.of_fields <;> simp

theorem SessionKept.paceFrame (s : State) : SessionKept s s.paceFrame := by
  apply SessionKept.of_fields <;> simp

theorem SessionKept.setAtlas (s : State) : SessionKept s { s with atlas := rasterisedAtlas s.launch } where
  launch := rfl
  exitStatus := rfl
  failure := rfl
  quit := id
  memory := id
  protectedKept := id
  matrixHigh _ := id
  matrixDummy := rfl
  atlasBuilt _ := rfl

/-- What RASTERIZE that is not refused does: it builds the atlas, or fails (43_font_rasterizer R170, R177). -/
theorem exec_rasterize_cases {s t : State} (h : exec .rasterize s = .next t) :
    t = { s with atlas := rasterisedAtlas s.launch } ∨ t = s.raiseFatalInit .atlas := by
  obtain ⟨-, rfl⟩ := ifLegalLaunch_eq_next h
  cases ha : s.launch.atlasOk with
  | true => exact .inl (buildAtlas_of_ok ha)
  | false => exact .inr (buildAtlas_of_fail ha)

/-- An operation other than RESET keeps the session, or is a RASTERIZE that fails. -/
theorem exec_keeps_session {i : Instr} {s t : State} (hi : i ≠ .reset) (h : exec i s = .next t) :
    SessionKept s t ∨ t = s.raiseFatalInit .atlas := by
  cases i with
  | read a => cases h; exact .inl (.setCpu s _)
  | write a v => cases h; exact .inl (.busWrite s a v)
  | portinKbd p r => cases h; exact .inl (.setCpu s _)
  | portinFloat p r => cases h; exact .inl (.setCpu s _)
  | portout p v hi => cases h; exact .inl (.refl s)
  | keydown k => cases h; exact .inl (.pressKey s k)
  | keyup k => cases h; exact .inl (.releaseKey s k)
  | quit => cases h; exact .inl (.setQuit s)
  | decode => cases h; exact .inl (.displayPass s)
  | rasterize =>
    obtain rfl | rfl := exec_rasterize_cases h
    · exact .inl (.setAtlas s)
    · exact .inr rfl
  | reset => exact absurd rfl hi
  | frame =>
    obtain ⟨-, rfl⟩ := exec_frame_eq_next_iff.mp h
    have hrest := (SessionKept.drainQueue s.cpuPhase).trans (.displayPass _)
    exact .inl ((SessionKept.cpuPhase s).trans (hrest.trans (.paceFrame _)))
  | runcpu =>
    obtain ⟨-, rfl⟩ := runCpu_eq_next_iff.mp h
    exact .inl (.cpuPhase s)
  | drain => cases h; exact .inl (.drainQueue s)
  | pace => cases h; exact .inl (.paceFrame s)

/-- Settles O42: an operation keeps the session with its `quit`, and a failing RASTERIZE leaves `quit` alone (log 15). -/
theorem nothingClearsQuit : Obligations.NothingClearsQuit := by
  intro i s t hi h hquit
  obtain hkept | rfl := exec_keeps_session hi h
  · exact hkept.quit hquit
  · exact hquit

/-! ### Where an enabled operation leaves the phase -/

/-- The phase is the same, or a live session's moved on along the loop: not to INIT or FAILED, and to HALTED only with
`quit` 1 (44_frame_scheduler R191, R203). -/
def PhaseKept (s t : State) : Prop :=
  t.phase = s.phase ∨ (s.live = true ∧ t.phase ≠ .failed ∧ (t.phase = .halted → t.quit = true))

theorem live_of_phase {s : State} {p : Phase} (hp : (s.phase == p) = true)
    (hlive : (p != .init && p != .failed) = true) : s.live = true := by
  rwa [State.live, beq_iff_eq.mp hp]

theorem PhaseKept.paceFrame {s u : State} (hs : s.live = true) : PhaseKept s u.paceFrame := by
  refine .inr ⟨hs, ?_, ?_⟩ <;> cases hq : u.quit <;> simp [phaseAfterPace, hq]

theorem PhaseKept.displayPass (s : State) : PhaseKept s s.displayPass := by
  unfold State.displayPass
  split
  · next hp => exact .inr ⟨live_of_phase (beq_iff_eq.mpr hp) rfl, by simp, by simp⟩
  · exact .inl rfl

/-- An operation other than RESET, performed where it is enabled, keeps the phase in the loop, or is a RASTERIZE that fails. -/
theorem exec_keeps_phase {i : Instr} {s t : State} (hi : i ≠ .reset) (he : enabled s.phase i = true)
    (h : exec i s = .next t) : PhaseKept s t ∨ t = s.raiseFatalInit .atlas := by
  cases i with
  | read a => cases h; exact .inl (.inl rfl)
  | write a v => cases h; exact .inl (.inl (busWrite_phase s a v))
  | portinKbd p r => cases h; exact .inl (.inl rfl)
  | portinFloat p r => cases h; exact .inl (.inl rfl)
  | portout p v hi => cases h; exact .inl (.inl rfl)
  | keydown k => cases h; exact .inl (.inl rfl)
  | keyup k => cases h; exact .inl (.inl rfl)
  | quit => cases h; exact .inl (.inl rfl)
  | decode => cases h; exact .inl (.displayPass s)
  | rasterize =>
    obtain rfl | rfl := exec_rasterize_cases h
    · exact .inl (.inl rfl)
    · exact .inr rfl
  | reset => exact absurd rfl hi
  | frame =>
    obtain ⟨-, rfl⟩ := exec_frame_eq_next_iff.mp h
    exact .inl (.paceFrame (live_of_phase he rfl))
  | runcpu =>
    obtain ⟨-, rfl⟩ := runCpu_eq_next_iff.mp h
    exact .inl (.inr ⟨live_of_phase he rfl, by simp, by simp⟩)
  | drain =>
    cases h
    exact .inl (.inr ⟨live_of_phase he rfl, by simp, by simp⟩)
  | pace => cases h; exact .inl (.paceFrame (live_of_phase he rfl))

/-! ### The invariant -/

/-- A sound state stays sound where the session is kept and the phase moves along the loop only. -/
theorem SessionKept.sound {s t : State} (h : SessionKept s t) (hphase : PhaseKept s t) (hs : s.Sound) : t.Sound := by
  have hlive : t.live = true → s.live = true := by
    obtain hp | ⟨hl, -⟩ := hphase
    · simp [State.live, hp]
    · exact fun _ => hl
  refine
    { memory := h.memory hs.memory
      launched := fun hl => h.launch ▸ hs.launched (hlive hl)
      protectedKept := fun hl => h.protectedKept (hs.protectedKept (hlive hl))
      matrixHigh := fun hl row => h.matrixHigh row (hs.matrixHigh (hlive hl) row)
      matrixDummy := fun hl => h.matrixDummy.trans (hs.matrixDummy (hlive hl))
      atlasBuilt := fun hl => h.atlasBuilt (hs.atlasBuilt (hlive hl))
      noFailure := fun hl => by rw [h.exitStatus, h.failure]; exact hs.noFailure (hlive hl)
      haltedByQuit := fun hp => ?_
      failedReported := fun hp => ?_ }
  · obtain he | ⟨-, -, hhalt⟩ := hphase
    · exact h.quit (hs.haltedByQuit (he ▸ hp))
    · exact hhalt hp
  · obtain he | ⟨-, hne, -⟩ := hphase
    · rw [h.exitStatus, h.failure, h.launch]
      exact hs.failedReported (he ▸ hp)
    · exact absurd hp hne

/-- A fatal failure leaves a sound state, whatever the state it is raised in (60_exceptions R221, R222). -/
theorem raiseFatalInit_sound (s : State) (c : FatalInit) : (s.raiseFatalInit c).Sound := by
  have hdead : ¬ (s.raiseFatalInit c).live = true := by simp [State.live]
  exact
    { memory := Memory.wf_undefinedMemory _ _
      launched := fun hl => absurd hl hdead
      protectedKept := fun hl => absurd hl hdead
      matrixHigh := fun hl => absurd hl hdead
      matrixDummy := fun hl => absurd hl hdead
      atlasBuilt := fun hl => absurd hl hdead
      noFailure := fun hl => absurd hl hdead
      haltedByQuit := fun hp => nomatch hp
      failedReported := fun _ => ⟨rfl, rfl⟩ }

/-- A RESET that is not refused leaves a sound state, whatever went before (10_state R45, R46). -/
theorem exec_reset_sound {s t : State} (h : exec .reset s = .next t) : t.Sound := by
  obtain ⟨hlegal, rfl⟩ := ifLegalLaunch_eq_next h
  cases hs : s.beginSession.launch.surfaceOk with
  | false => rw [initialise_of_surface hs]; exact raiseFatalInit_sound _ _
  | true =>
    cases ha : s.beginSession.launch.atlasOk with
    | false => rw [initialise_of_atlas hs ha]; exact raiseFatalInit_sound _ _
    | true =>
      rw [initialise_of_ok hs ha (beginSession_phase_ne s)]
      exact
        { memory := rfl
          launched := fun _ => ⟨hlegal, hs, ha⟩
          protectedKept := fun _ c hc => nomatch hc
          matrixHigh := fun _ => (by decide :
            ∀ row, matrixRow (Vector.replicate Config.kbdSlots Config.releasedRow) row &&& 0xE0 = 0xE0)
          matrixDummy := fun _ => rfl
          atlasBuilt := fun _ => rfl
          noFailure := fun _ => ⟨rfl, rfl⟩
          haltedByQuit := fun hp => nomatch hp
          failedReported := fun hp => nomatch hp }

theorem exec_keeps_sound {i : Instr} {s t : State} (hs : s.Sound) (he : enabled s.phase i = true)
    (h : exec i s = .next t) : t.Sound := by
  by_cases hi : i = .reset
  · exact exec_reset_sound (hi ▸ h)
  · obtain hkept | rfl := exec_keeps_session hi h
    · obtain hphase | rfl := exec_keeps_phase hi he h
      · exact hkept.sound hphase hs
      · exact raiseFatalInit_sound s _
    · exact raiseFatalInit_sound s _

/-- Settles O55: the landing batch and the fetch touch no field the invariant is about, and every enabled operation keeps
it. -/
theorem stepKeepsSound : Obligations.StepKeepsSound := by
  intro s t hs h
  obtain ⟨i, u, hn, hexec⟩ := step_eq_next h
  obtain ⟨he, rfl⟩ := nextOperation_eq_next hn
  have hfetched : SessionKept s { s.deliver with transport := s.deliver.transport.tail } :=
    .of_fields rfl rfl rfl rfl rfl rfl rfl
  exact exec_keeps_sound (hfetched.sound (.inl rfl) hs) he hexec

/-! ### The state after reset -/

theorem standardLaunch_legal : legalLaunch standardLaunch = true := by
  have hconfig : legalConfig standardConfig = true := by decide
  have hrom : legalRom standardLaunch = true := legalRom_iff.mpr List.length_replicate
  exact Bool.and_eq_true_iff.mpr ⟨hconfig, hrom⟩

/-- A RESET of a legal launch whose host can do both of its steps (70_reset_and_hazards R250, R257). -/
theorem exec_reset_of_ok {s : State} (hlegal : legalLaunch s.beginSession.launch = true)
    (hs : s.beginSession.launch.surfaceOk = true) (ha : s.beginSession.launch.atlasOk = true) :
    exec .reset s =
      .next { s.beginSession with atlas := rasterisedAtlas s.beginSession.launch, phase := .runcpu } := by
  rw [exec_reset, ifLegalLaunch_of_legal hlegal, initialise_of_ok hs ha (beginSession_phase_ne s)]

/-- Settles O54: the standard launch is legal and its host can do both steps of RESET. -/
theorem resetFromInitIsResetState : Obligations.ResetFromInitIsResetState :=
  exec_reset_of_ok (s := { State.reset with phase := .init }) standardLaunch_legal rfl rfl

/-- Settles O56: `State.reset` is what a RESET leaves. -/
theorem resetStateIsSound : Obligations.ResetStateIsSound := exec_reset_sound resetFromInitIsResetState

/-! ### The ROM and its mirror -/

/-- Every state a run from a sound state reaches is sound. -/
theorem run_keeps_sound (n : Nat) {s t : State} (hs : s.Sound) (h : core.run n s = .next t) : t.Sound := by
  induction n generalizing s with
  | zero => cases h; exact hs
  | succ n ih =>
    rw [core_run_succ] at h
    cases hstep : step s with
    | next u => rw [hstep] at h; exact ih (stepKeepsSound s u hs hstep) h
    | fault r => rw [hstep] at h; cases h
    | refused r => rw [hstep] at h; cases h

/-- A byte below every listed address holds its reset value (10_state R21). -/
theorem memRead_of_lt {l : Launch} {m : List Host.Cell} {a : Nat} (h : ∀ c ∈ m, a < c.1) :
    memRead l m a = resetByte l a := by
  rw [memRead, cellAt_eq_none_of_lt h, Option.getD_none]

/-- Settles O57: a run keeps the invariant, so nothing is listed below 0x4000, where both copies of the ROM lie. -/
theorem romAndMirrorNeverDiverge : Obligations.RomAndMirrorNeverDiverge := by
  intro n s t hs hrun hlive
  have ht : t.Sound := run_keeps_sound n hs hrun
  have hkept (a : Nat) (ha : a < 0x4000) : memRead t.launch t.mem a = resetByte t.launch a :=
    memRead_of_lt fun c hc => Nat.lt_of_lt_of_le ha (ht.protectedKept hlive c hc)
  obtain ⟨hlegal, -⟩ := ht.launched hlive
  have hbounds := rom_bounds hlegal
  refine ⟨hkept, fun i hi => ⟨?_, ?_⟩⟩
  · rw [hkept i (by omega), resetByte_rom hi]
  · rw [hkept _ (by omega), resetByte_mirror hlegal hi]

/-! ### The step with no word presented -/

theorem step_own {s : State} (ht : s.transport = []) {p : Phase} (hp : s.phase = p) {i : Instr}
    (ho : ownOperation p = some i) : step s = exec i s.deliver := by
  have hn : nextOperation s.deliver = .next (i, s.deliver) := nextOperation_own (s := s.deliver) ht (hp ▸ ho)
  rw [step, hn]

/-- Settles O6: each clause is the sequencer's own operation of that phase (44_frame_scheduler R190), after the landing
batch (log 12), the transport being empty (log 1). -/
theorem stepPerformsSequencerPhase : Obligations.StepPerformsSequencerPhase := by
  intro s ht
  exact ⟨fun hp => step_own ht hp rfl, fun hp => step_own ht hp rfl, fun hp => step_own ht hp rfl,
    fun hp => step_own ht hp rfl, fun hp => step_own ht hp rfl⟩

/-! ### The keys a matrix shows held -/

/-- The matrix after a key event. -/
def KeyEvent.apply (c : Config) (k : Matrix) (e : KeyEvent) : Matrix :=
  if e.2 then (drivenBits c e.1).foldl pressBit k else (drivenBits c e.1).foldl releaseBit k

theorem exec_keyEvent (s : State) (e : KeyEvent) :
    exec e.op s = .next { s with kbd := KeyEvent.apply s.launch.cfg s.kbd e } := by
  obtain ⟨key, pressed⟩ := e
  cases pressed <;> rfl

/-- Key operations complete, and change the matrix only. -/
theorem execAll_keyEvents (events : List KeyEvent) (s : State) :
    execAll (events.map KeyEvent.op) s =
      .next { s with kbd := events.foldl (KeyEvent.apply s.launch.cfg) s.kbd } := by
  induction events generalizing s with
  | nil => rfl
  | cons e rest ih => rw [List.map_cons, execAll, exec_keyEvent]; exact ih _

/-- A key event makes the bits its key drives 0 on a press and 1 on a release, and no other bit. -/
theorem keyBit_apply (c : Config) (k : Matrix) (e : KeyEvent) (row : Row) (col : Col) :
    keyBit (KeyEvent.apply c k e) row col.val = if (row, col) ∈ drivenBits c e.1 then !e.2 else keyBit k row col.val := by
  have hdriven : (∃ b ∈ drivenBits c e.1, row = b.1 ∧ col.val = b.2.val) ↔ (row, col) ∈ drivenBits c e.1 := by
    constructor
    · rintro ⟨b, hb, hrow, hcol⟩
      rwa [hrow, Fin.ext hcol]
    · exact fun hb => ⟨_, hb, rfl, rfl⟩
  unfold KeyEvent.apply
  cases e.2 with
  | true => rw [if_pos rfl, keyBit_foldl_pressBit, if_congr hdriven rfl rfl, Bool.not_true]
  | false => rw [if_neg (by decide), keyBit_foldl_releaseBit, if_congr hdriven rfl rfl, Bool.not_false]

/-- The last event decides for its key, and for no other. -/
theorem heldAfter_append (events : List KeyEvent) (e : KeyEvent) (key : KeyId) :
    heldAfter (events ++ [e]) key = if e.1 = key then e.2 else heldAfter events key := by
  unfold heldAfter
  rw [List.filter_append]
  by_cases h : e.1 = key <;> simp [h]

/-- A key that is held was operated on. -/
theorem exists_event_of_heldAfter {events : List KeyEvent} {key : KeyId} (h : heldAfter events key = true) :
    ∃ e ∈ events, e.1 = key := by
  by_contra hnone
  have hempty : (events.filter fun e => e.1 == key) = [] :=
    List.filter_eq_nil_iff.mpr fun e he hkey => hnone ⟨e, he, beq_iff_eq.mp hkey⟩
  simp [heldAfter, hempty] at h

/-- No key is held in a matrix of released rows, so no meaningful bit is 0 (10_state R26). -/
theorem keyBit_released (row : Row) (col : Col) : keyBit (Vector.replicate 9 0xFF) row col.val = true := by
  revert row col
  decide

/-- A bit is 0 exactly when a held key drives it (10_state R27), by induction on the events, the last one taken off: where
the last event's key drives the bit it alone decides, since no other key of the events drives it. -/
theorem keyBit_foldl_apply {c : Config} {events : List KeyEvent} (h : NoSharedBit c events) (row : Row) (col : Col) :
    keyBit (events.foldl (KeyEvent.apply c) (Vector.replicate 9 0xFF)) row col.val = false ↔
      ∃ k, heldAfter events k = true ∧ (row, col) ∈ drivenBits c k := by
  induction events using List.reverseRecOn with
  | nil =>
    have hreleased := keyBit_released row col
    exact iff_of_false (by rw [List.foldl_nil, hreleased]; decide) fun ⟨_, hheld, _⟩ => nomatch hheld
  | append_singleton events e ih =>
    have hlast : e ∈ events ++ [e] := List.mem_append_right _ (List.mem_singleton_self e)
    have hearlier {f : KeyEvent} (hf : f ∈ events) : f ∈ events ++ [e] := List.mem_append_left _ hf
    rw [List.foldl_append, List.foldl_cons, List.foldl_nil, keyBit_apply]
    simp only [heldAfter_append]
    by_cases hdrives : (row, col) ∈ drivenBits c e.1
    · rw [if_pos hdrives, Bool.not_eq_false']
      constructor
      · exact fun hpress => ⟨e.1, by rw [if_pos rfl, hpress], hdrives⟩
      · rintro ⟨k, hheld, hk⟩
        by_cases hek : e.1 = k
        · rwa [if_pos hek] at hheld
        · rw [if_neg hek] at hheld
          obtain ⟨f, hf, rfl⟩ := exists_event_of_heldAfter hheld
          exact absurd hk (h e hlast f (hearlier hf) hek _ hdrives)
    · rw [if_neg hdrives, ih fun f hf g hg => h f (hearlier hf) g (hearlier hg)]
      refine exists_congr fun k => and_congr_left fun hk => ?_
      rw [if_neg fun hek : e.1 = k => hdrives (hek ▸ hk)]

/-- Settles O23: key operations act on the matrix alone, where a bit is 0 exactly when a held key drives it. -/
theorem matrixShowsHeldKeys : Obligations.MatrixShowsHeldKeys := by
  intro s events hreleased hshared
  refine ⟨_, execAll_keyEvents events s, fun row col => ?_⟩
  rw [hreleased]
  exact keyBit_foldl_apply hshared row col

end Sys2Proof.Machine
end

section
/-! Proofs about memory (20_memory): the bytes DECODE reads. -/
namespace Sys2Proof.Machine

/-! ### What DECODE reads of memory -/

@[simp] theorem displayPass_fb (s : State) : s.displayPass.fb = some (displayFrame s) := by
  unfold State.displayPass; split <;> rfl

/-- The walk's byte of a cell is the one at the cell's address in closed form (42_display_decoder R152). -/
theorem displayByte_displayCells (s : State) {r c : Nat} (hr : r < 24) (hc : c < 32) :
    displayByte (displayCells s) r c = s.readByte (cellAddr s.readPointer r c) := by
  rw [displayCells, displayByte_walkRows s Config.dispRows _ r c hr hc, addr_succ_add_ofNat, cellAddr, lineStride_eq,
    Nat.add_assoc 1, Nat.add_comm 1]

/-- The pointer depends on its address and the two bytes there only (20_memory R71). -/
theorem readPointer_congr {s u : State} (haddr : u.launch.cfg.dfilePtrAddr = s.launch.cfg.dfilePtrAddr)
    (hlo : u.readByte s.launch.cfg.dfilePtrAddr = s.readByte s.launch.cfg.dfilePtrAddr)
    (hhi : u.readByte (s.launch.cfg.dfilePtrAddr + 1) = s.readByte (s.launch.cfg.dfilePtrAddr + 1)) :
    u.readPointer = s.readPointer := by
  rw [State.readPointer, State.readPointer, haddr, hlo, hhi]

/-- The frame depends on the atlas and the cells' bytes only: every pixel lies in a cell. -/
theorem displayFrame_congr {s u : State} (hatlas : u.atlas = s.atlas)
    (hcells : ∀ r < 24, ∀ c < 32, displayByte (displayCells u) r c = displayByte (displayCells s) r c) :
    displayFrame u = displayFrame s := by
  apply Vector.ext; intro y hy
  apply Vector.ext; intro x hx
  have hrow : y / Config.cellPx < 24 := Nat.div_lt_of_lt_mul hy
  have hcol : x / Config.cellPx < 32 := Nat.div_lt_of_lt_mul hx
  simp only [displayFrame, getElem_tabulate, hatlas, hcells _ hrow _ hcol]

/-- A cell's address is not the one at another offset from the pointer: below 65536 no two offsets wrap onto each other. -/
theorem cellAddr_ne_add_ofNat (d : Addr) {r c n : Nat} (hr : r < 24) (hc : c < 32) (hn : n < 65536)
    (hne : 1 + 33 * r + c ≠ n) : cellAddr d r c ≠ d + BitVec.ofNat 16 n := by
  intro h
  have hoffset := congrArg BitVec.toNat ((BitVec.add_right_inj d).mp h)
  simp only [BitVec.toNat_ofNat, lineStride_eq, addrBits] at hoffset
  omega

/-- Settles O28: the cells' bytes and the atlas make the frame, and the skipped bytes lie at offsets that are multiples of
33, where no cell lies. -/
theorem decodeFootprint : Obligations.DecodeFootprint := by
  constructor
  · intro s u hatlas haddr hlo hhi hcells
    have hpointer : u.readPointer = s.readPointer := readPointer_congr haddr hlo hhi
    have hframe : displayFrame u = displayFrame s := displayFrame_congr hatlas fun r hr c hc => by
      rw [displayByte_displayCells u hr hc, displayByte_displayCells s hr hc, hpointer, hcells r hr c hc]
    refine ⟨_, _, exec_decode s, exec_decode u, ?_⟩
    rw [displayPass_fb, displayPass_fb, hframe]
  · intro d r c r' hr hc hr'
    constructor
    · simpa using cellAddr_ne_add_ofNat d hr hc (n := 0) (by omega) (by omega)
    · exact cellAddr_ne_add_ofNat d hr hc (by omega) (by omega)

end Sys2Proof.Machine
end

section
/-! Proofs about the encoding (30_encoding): decoder and encoder are inverse to each other, the table of R94 is what the
decoder decides, what a step does with a presented word, and the pseudo-operations of R100. -/
namespace Sys2Proof.Machine
open Sys2Proof.Laws

/-! ### Decoder and encoder -/

theorem decode_packWord (op : BitVec 4) (a : Addr) (d : Byte) :
    decode (packWord op a d) = decodeOp (packWord op a d) := by
  rw [decode, zeroField_packWord, if_pos rfl]

theorem decode_encode (i : Instr) (h : i.wellFormed = true) : decode (encode i) = .ok i := by
  cases i with
  | read _ | write _ _ | portout _ _ _ | keydown _ | keyup _ => simp [encode, decode_packWord, decodeOp, ifZero]
  | portinKbd port rowsel =>
    have heven : evenPort port = true := h
    simp [encode, decode_packWord, decodeOp, ifZero, heven]
  | portinFloat port rowsel =>
    have hodd : evenPort port = false := (Bool.not_eq_true' _).mp h
    simp [encode, decode_packWord, decodeOp, ifZero, hodd]
  | quit | decode | rasterize | reset | frame | runcpu | drain | pace => rfl

/-- Settles O1: the fields of the packed word are the operands, and the port's parity picks the PORTIN row. -/
theorem decodeOfEncode : Obligations.DecodeOfEncode := decode_encode

/-- A word with zero field 0 is determined by its `op`, `a` and `d` (30_encoding R92). -/
theorem encode_eq_of_fields {w : Word} {i : Instr} (hz : zeroField w = 0)
    (hop : (opField w).toNat = (opcode i).toNat) (he : encode i = packWord (opcode i) (aField w) (dField w)) :
    encode i = w := by
  rw [he, ← BitVec.eq_of_toNat_eq hop, packWord_fields w hz]

/-- The word of an operation whose field `d` must be 0 (30_encoding R93). -/
theorem encode_eq_of_ifZero_dField {w : Word} {i j : Instr} (h : ifZero (dField w) i = .ok j) (hz : zeroField w = 0)
    (hop : (opField w).toNat = (opcode i).toNat) (hi : i.wellFormed = true)
    (he : encode i = packWord (opcode i) (aField w) 0) : j.wellFormed = true ∧ encode j = w := by
  obtain ⟨hd, rfl⟩ := ifZero_eq_ok.mp h
  exact ⟨hi, encode_eq_of_fields hz hop (hd ▸ he)⟩

/-- The word of an operation without operands (30_encoding R93). -/
theorem encode_eq_of_ifZero_low24 {w : Word} {i j : Instr} (h : ifZero (w.extractLsb' 0 24) i = .ok j)
    (hz : zeroField w = 0) (hop : (opField w).toNat = (opcode i).toNat) (hi : i.wellFormed = true)
    (he : encode i = packWord (opcode i) 0 0) : j.wellFormed = true ∧ encode j = w := by
  obtain ⟨hlow, rfl⟩ := ifZero_eq_ok.mp h
  obtain ⟨ha, hd⟩ := (low24_eq_zero_iff w).mp hlow
  exact ⟨hi, encode_eq_of_fields hz hop (by rw [he, ha, hd])⟩

theorem encode_of_decodeOp {w : Word} {i : Instr} (hz : zeroField w = 0) (h : decodeOp w = .ok i) :
    i.wellFormed = true ∧ encode i = w := by
  have hport : hiField w ++ loField w = aField w := hiField_append_loField w
  unfold decodeOp at h
  split at h
  -- READ, KEYDOWN, KEYUP
  case h_1 hop | h_5 hop | h_6 hop => exact encode_eq_of_ifZero_dField h hz hop rfl rfl
  -- WRITE
  case h_2 hop => cases h; exact ⟨rfl, encode_eq_of_fields hz hop rfl⟩
  -- PORTIN
  case h_3 hop =>
    split at h
    next heven => exact encode_eq_of_ifZero_dField h hz hop heven (by rw [← hport]; rfl)
    next hodd =>
      have hfloat : (!evenPort (loField w)) = true := by rw [Bool.eq_false_iff.mpr hodd]; rfl
      exact encode_eq_of_ifZero_dField h hz hop hfloat (by rw [← hport]; rfl)
  -- PORTOUT
  case h_4 hop => cases h; exact ⟨rfl, encode_eq_of_fields hz hop (by rw [← hport]; rfl)⟩
  -- no operation code
  case h_15 => cases h
  -- the eight operations without operands
  all_goals next hop => exact encode_eq_of_ifZero_low24 h hz hop rfl rfl

theorem decode_eq_ok_iff_decodeOp {w : Word} {i : Instr} :
    decode w = .ok i ↔ zeroField w = 0 ∧ decodeOp w = .ok i := by
  unfold decode
  split
  next hz => exact (and_iff_right hz).symm
  next hz => exact iff_of_false (fun h => nomatch h) fun h => hz h.1

/-- The words that decode are exactly the words of well-formed operations. -/
theorem decode_eq_ok_iff {w : Word} {i : Instr} : decode w = .ok i ↔ i.wellFormed = true ∧ encode i = w := by
  constructor
  · intro h
    obtain ⟨hz, hop⟩ := decode_eq_ok_iff_decodeOp.mp h
    exact encode_of_decodeOp hz hop
  · rintro ⟨hi, rfl⟩
    exact decode_encode i hi

/-- Settles O2: in each branch of the decoder the operation's word repacks the fields of the decoded word. -/
theorem encodeOfDecode : Obligations.EncodeOfDecode := fun _ _ => decode_eq_ok_iff.mp

/-- Settles O4, on the nineteen words of 95_test_vectors 2.8. -/
theorem specWordsDecode : Obligations.SpecWordsDecode := by
  unfold Obligations.SpecWordsDecode
  decide

/-! ### The operation table -/

theorem word_eq_iff_fields {v w : Word} :
    v = w ↔ opField v = opField w ∧ zeroField v = zeroField w ∧ aField v = aField w ∧ dField v = dField w := by
  constructor
  · rintro rfl
    exact ⟨rfl, rfl, rfl, rfl⟩
  · rintro ⟨hop, hz, ha, hd⟩
    simp only [opField, zeroField, aField, dField, ← BitVec.toNat_inj, BitVec.extractLsb'_toNat,
      Nat.shiftRight_eq_div_pow] at hop hz ha hd
    bv_omega

/-- A mask is applied field by field. -/
theorem hits_iff_fields (r : TableRow) (w : Word) :
    r.hits w = true ↔
      opField w &&& opField r.mask = opField r.pattern ∧ zeroField w &&& zeroField r.mask = zeroField r.pattern ∧
      aField w &&& aField r.mask = aField r.pattern ∧ dField w &&& dField r.mask = dField r.pattern := by
  rw [TableRow.hits, beq_iff_eq, word_eq_iff_fields]
  simp only [opField, zeroField, aField, dField, BitVec.extractLsb'_and]

/-- What a row of R94 asks of a word: its `op` and zero fields whole, `a` and `d` under their parts of the mask. -/
theorem hits_row {m w : Word} (op : BitVec 4) (a ma : Addr) (d md : Byte) (hop : opField m = BitVec.allOnes 4)
    (hz : zeroField m = BitVec.allOnes 4) (ha : aField m = ma) (hd : dField m = md) :
    TableRow.hits ⟨packWord op a d, m⟩ w = true ↔
      opField w = op ∧ zeroField w = 0 ∧ aField w &&& ma = a ∧ dField w &&& md = d := by
  rw [hits_iff_fields, opField_packWord, zeroField_packWord, aField_packWord, dField_packWord, hop, hz, ha, hd,
    BitVec.and_allOnes, BitVec.and_allOnes]

/-- The row of an operation without operands. -/
theorem hits_plainRow {p w : Word} : TableRow.hits ⟨p, 0xFFFFFFFF⟩ w = true ↔ w = p := by
  rw [TableRow.hits, beq_iff_eq, show (0xFFFFFFFF : Word) = BitVec.allOnes 32 from rfl, BitVec.and_allOnes]

/-- The row of an operation that uses every field. -/
theorem hits_fullRow (op : BitVec 4) {w : Word} :
    TableRow.hits ⟨packWord op 0 0, 0xFF000000⟩ w = true ↔ opField w = op ∧ zeroField w = 0 := by
  rw [hits_row op 0 0#16 0 0#8 rfl rfl rfl rfl]
  simp

/-- The row of an operation whose one operand is `a`. -/
theorem hits_addressRow (op : BitVec 4) {w : Word} :
    TableRow.hits ⟨packWord op 0 0, 0xFF0000FF⟩ w = true ↔ opField w = op ∧ zeroField w = 0 ∧ dField w = 0 := by
  rw [hits_row op 0 0#16 0 (BitVec.allOnes 8) rfl rfl rfl rfl, BitVec.and_allOnes]
  simp

/-- The port's parity is bit 0 of `a` (30_encoding R81, R92). -/
theorem evenPort_loField (w : Word) : evenPort (loField w) = !(aField w).getLsbD 0 := by
  simp [evenPort, loField, aField]

/-- The two rows of PORTIN, told apart by the port's parity. -/
theorem hits_portinRow (odd : Bool) {w : Word} :
    TableRow.hits ⟨packWord 2 (if odd then 1 else 0) 0, 0xFF0001FF⟩ w = true ↔
      opField w = 2 ∧ zeroField w = 0 ∧ evenPort (loField w) = !odd ∧ dField w = 0 := by
  have hparity : aField w &&& 1 = (if odd then 1 else 0) ↔ evenPort (loField w) = !odd := by
    rw [evenPort_loField, show aField w &&& 1 = _ from BitVec.and_one_eq_setWidth_ofBool_getLsbD]
    cases (aField w).getLsbD 0 <;> cases odd <;> decide
  rw [hits_row 2 _ 1 0 (BitVec.allOnes 8) rfl rfl rfl rfl, BitVec.and_allOnes, hparity]

theorem hits_encode (i : Instr) (h : i.wellFormed = true) : (tableRows[i.tableIndex]!).hits (encode i) = true := by
  cases i with
  | read _ => exact (hits_addressRow 0).mpr ⟨opField_packWord .., zeroField_packWord .., dField_packWord ..⟩
  | write _ _ => exact (hits_fullRow 1).mpr ⟨opField_packWord .., zeroField_packWord ..⟩
  | portinKbd port _ =>
    have heven : evenPort port = true := h
    exact (hits_portinRow false).mpr ⟨opField_packWord .., zeroField_packWord ..,
      (congrArg evenPort (loField_packWord ..)).trans heven, dField_packWord ..⟩
  | portinFloat port _ =>
    have hodd : evenPort port = false := (Bool.not_eq_true' _).mp h
    exact (hits_portinRow true).mpr ⟨opField_packWord .., zeroField_packWord ..,
      (congrArg evenPort (loField_packWord ..)).trans hodd, dField_packWord ..⟩
  | portout _ _ _ => exact (hits_fullRow 3).mpr ⟨opField_packWord .., zeroField_packWord ..⟩
  | keydown _ => exact (hits_addressRow 4).mpr ⟨opField_packWord .., zeroField_packWord .., dField_packWord ..⟩
  | keyup _ => exact (hits_addressRow 5).mpr ⟨opField_packWord .., zeroField_packWord .., dField_packWord ..⟩
  | quit | decode | rasterize | reset | frame | runcpu | drain | pace => rfl

theorem exists_encode_of_hits {w : Word} (n : Fin 15) (h : (tableRows[n.val]!).hits w = true) :
    ∃ i : Instr, (i.wellFormed = true ∧ encode i = w) ∧ i.tableIndex = n.val := by
  have hport : hiField w ++ loField w = aField w := hiField_append_loField w
  match n, h with
  | 0, h =>
    obtain ⟨hop, hz, hd⟩ := (hits_addressRow 0).mp h
    exact ⟨.read (aField w), ⟨rfl, encode_eq_of_fields hz (congrArg _ hop) (by rw [hd]; rfl)⟩, rfl⟩
  | 1, h =>
    obtain ⟨hop, hz⟩ := (hits_fullRow 1).mp h
    exact ⟨.write (aField w) (dField w), ⟨rfl, encode_eq_of_fields hz (congrArg _ hop) rfl⟩, rfl⟩
  | 2, h =>
    obtain ⟨hop, hz, heven, hd⟩ := (hits_portinRow false).mp h
    exact ⟨.portinKbd (loField w) (hiField w),
      ⟨heven, encode_eq_of_fields hz (congrArg _ hop) (by rw [hd, ← hport]; rfl)⟩, rfl⟩
  | 3, h =>
    obtain ⟨hop, hz, hodd, hd⟩ := (hits_portinRow true).mp h
    exact ⟨.portinFloat (loField w) (hiField w),
      ⟨(Bool.not_eq_true' _).mpr hodd, encode_eq_of_fields hz (congrArg _ hop) (by rw [hd, ← hport]; rfl)⟩, rfl⟩
  | 4, h =>
    obtain ⟨hop, hz⟩ := (hits_fullRow 3).mp h
    exact ⟨.portout (loField w) (dField w) (hiField w),
      ⟨rfl, encode_eq_of_fields hz (congrArg _ hop) (by rw [← hport]; rfl)⟩, rfl⟩
  | 5, h =>
    obtain ⟨hop, hz, hd⟩ := (hits_addressRow 4).mp h
    exact ⟨.keydown (aField w), ⟨rfl, encode_eq_of_fields hz (congrArg _ hop) (by rw [hd]; rfl)⟩, rfl⟩
  | 6, h =>
    obtain ⟨hop, hz, hd⟩ := (hits_addressRow 5).mp h
    exact ⟨.keyup (aField w), ⟨rfl, encode_eq_of_fields hz (congrArg _ hop) (by rw [hd]; rfl)⟩, rfl⟩
  | 7, h => exact ⟨.quit, ⟨rfl, (hits_plainRow.mp h).symm⟩, rfl⟩
  | 8, h => exact ⟨.decode, ⟨rfl, (hits_plainRow.mp h).symm⟩, rfl⟩
  | 9, h => exact ⟨.rasterize, ⟨rfl, (hits_plainRow.mp h).symm⟩, rfl⟩
  | 10, h => exact ⟨.reset, ⟨rfl, (hits_plainRow.mp h).symm⟩, rfl⟩
  | 11, h => exact ⟨.frame, ⟨rfl, (hits_plainRow.mp h).symm⟩, rfl⟩
  | 12, h => exact ⟨.runcpu, ⟨rfl, (hits_plainRow.mp h).symm⟩, rfl⟩
  | 13, h => exact ⟨.drain, ⟨rfl, (hits_plainRow.mp h).symm⟩, rfl⟩
  | 14, h => exact ⟨.pace, ⟨rfl, (hits_plainRow.mp h).symm⟩, rfl⟩

/-- The table and the decoder agree: this one fact gives every part of R95, the decoder being a function. -/
theorem hits_iff_decode (n : Fin 15) (w : Word) :
    (tableRows[n.val]!).hits w = true ↔ ∃ i, decode w = .ok i ∧ i.tableIndex = n.val := by
  constructor
  · intro h
    obtain ⟨i, hi, hn⟩ := exists_encode_of_hits n h
    exact ⟨i, decode_eq_ok_iff.mpr hi, hn⟩
  · rintro ⟨i, hd, hn⟩
    obtain ⟨hi, rfl⟩ := decode_eq_ok_iff.mp hd
    exact hn ▸ hits_encode i hi

theorem tableIndex_lt (i : Instr) : i.tableIndex < 15 := by
  cases i <;> simp [Instr.tableIndex]

theorem hits_of_decode {w : Word} {i : Instr} (h : decode w = .ok i) : (tableRows[i.tableIndex]!).hits w = true :=
  (hits_iff_decode ⟨i.tableIndex, tableIndex_lt i⟩ w).mpr ⟨i, h, rfl⟩

theorem mem_tableRows_iff {r : TableRow} : r ∈ tableRows ↔ ∃ n : Fin 15, tableRows[n.val]! = r := by
  rw [List.mem_iff_getElem]
  constructor
  · rintro ⟨n, hn, rfl⟩
    exact ⟨⟨n, hn⟩, getElem!_pos tableRows n hn⟩
  · rintro ⟨n, rfl⟩
    exact ⟨n.val, n.isLt, (getElem!_pos tableRows n.val n.isLt).symm⟩

/-- The decoder refuses exactly the words of no row (30_encoding R95). -/
theorem decode_refuses_iff (w : Word) : (∃ e, decode w = .error e) ↔ ∀ r ∈ tableRows, r.hits w = false := by
  constructor
  · rintro ⟨e, he⟩ r hr
    obtain ⟨n, rfl⟩ := mem_tableRows_iff.mp hr
    refine Bool.eq_false_iff.mpr fun hhits => ?_
    obtain ⟨i, hi, -⟩ := (hits_iff_decode n w).mp hhits
    exact nomatch he.symm.trans hi
  · intro hnone
    cases hd : decode w with
    | error e => exact ⟨e, rfl⟩
    | ok i =>
      have hrow : tableRows[i.tableIndex]! ∈ tableRows := mem_tableRows_iff.mpr ⟨⟨_, tableIndex_lt i⟩, rfl⟩
      exact absurd (hits_of_decode hd) (Bool.eq_false_iff.mp (hnone _ hrow))

theorem step_undecodable {s : State} {w : Word} {rest : List Word} (ht : s.transport = w :: rest) {e : DecodeError}
    (hd : decode w = .error e) : step s = .refused (.undecodable e) := by
  simp [step, nextOperation, ht, hd]

/-- Settles O3: two rows a word is of are the row of the one operation it decodes to, and a word of no row decodes to
none, which refuses the step. -/
theorem decodingIsTotalAndDisjoint : Obligations.DecodingIsTotalAndDisjoint := by
  intro w
  refine ⟨fun m n hm hn => ?_, fun i => hits_of_decode, decode_refuses_iff w, fun s rest ht hnone => ?_⟩
  · obtain ⟨i, hi, him⟩ := (hits_iff_decode m w).mp hm
    obtain ⟨j, hj, hjn⟩ := (hits_iff_decode n w).mp hn
    obtain rfl : i = j := Except.ok.inj (hi.symm.trans hj)
    exact Fin.ext (him.symm.trans hjn)
  · obtain ⟨e, he⟩ := (decode_refuses_iff w).mpr hnone
    exact ⟨e, he, step_undecodable ht he⟩

/-! ### The step with a word presented -/

section Presented

variable {s : State} {w : Word} {rest : List Word} {i : Instr}

theorem step_word (ht : s.transport = w :: rest) (hd : decode w = .ok i) (he : enabled s.phase i = true) :
    step s = exec i { s.deliver with transport := rest } := by
  rw [step, nextOperation_word (s := s.deliver) ht hd he]

theorem nextOperation_disabled (ht : s.transport = w :: rest) (hd : decode w = .ok i)
    (he : ¬ enabled s.phase i = true) : nextOperation s = stopped s := by
  simp [nextOperation, ht, hd, he]

theorem step_disabled_ne_next (ht : s.transport = w :: rest) (hd : decode w = .ok i)
    (he : ¬ enabled s.phase i = true) (t : State) : step s ≠ .next t := by
  intro h
  obtain ⟨j, u, hn, -⟩ := step_eq_next h
  rw [nextOperation_disabled (s := s.deliver) ht hd he] at hn
  exact stopped_ne_next s.deliver (j, u) hn

theorem step_disabled_fault (ht : s.transport = w :: rest) (hd : decode w = .ok i)
    (he : ¬ enabled s.phase i = true) {r : Fault} (hr : stopped s.deliver = .fault r) : step s = .fault r := by
  rw [step, nextOperation_disabled (s := s.deliver) ht hd he, hr]

theorem stopped_of_halted (hp : s.phase = .halted) : stopped s = .fault .halted := by
  simp [stopped, hp]

theorem stopped_of_failed (hp : s.phase = .failed) : stopped s = .fault (.fatalInit s.failure) := by
  simp [stopped, hp]

end Presented

/-- Settles O5: its cases are `enabled` written out. -/
theorem stepPerformsDecodedWord : Obligations.StepPerformsDecodedWord := by
  intro s w rest i ht hd hwhen
  exact step_word ht hd ((enabled_iff s.phase i).mpr hwhen)

/-- Settles O7: in none of its cases is the operation enabled (30_encoding R96). -/
theorem disabledOperationStops : Obligations.DisabledOperationStops := by
  intro s w rest i ht hd
  refine ⟨fun hp hi => ?_, fun hp hi => ?_, fun hi hp => ?_, fun hi hp => ?_, fun hi hp => ?_⟩
  · exact step_disabled_fault ht hd (by simp [enabled_iff, hp, hi]) (stopped_of_halted hp)
  · exact step_disabled_fault ht hd (by simp [enabled_iff, hp, hi]) (stopped_of_failed hp)
  · refine step_disabled_ne_next ht hd ?_
    obtain rfl | rfl := hi <;> simpa [enabled_iff] using hp
  · refine step_disabled_ne_next ht hd ?_
    obtain rfl | rfl := hi <;> simpa [enabled_iff] using hp
  · refine step_disabled_ne_next ht hd ?_
    subst hi
    simpa [enabled_iff] using hp

/-! ### The pseudo-operations -/

theorem oneRowSelect_eq (p : Row) : oneRowSelect p = 0xFF &&& ~~~((1 : Byte) <<< p.val) :=
  (BitVec.allOnes_and (x := oneRowSelect p)).symm

theorem rowScan_oneRowSelect (k : Matrix) (p : Row) : rowScan k (oneRowSelect p) = matrixRow k p := by
  rw [rowScan, selrow_oneRowSelect]

theorem execAll_scan (s : State) (p : Row) :
    execAll (Pseudo.expand (.scan p)) s = .next (s.returnByte (matrixRow s.kbd p)) := by
  rw [← rowScan_oneRowSelect]
  rfl

theorem matrixBit_releaseKey (s : State) (k : KeyId) {b : Row × Col} (hb : b ∈ drivenBits s.launch.cfg k) :
    matrixBit (s.releaseKey k).kbd b.1 b.2.val = true :=
  (keyBit_foldl_releaseBit (drivenBits s.launch.cfg k) s.kbd b.1 b.2.val).trans (if_pos ⟨b, hb, rfl, rfl⟩)

/-- The state a POKE16 leaves (30_encoding R100). -/
def State.poke16 (s : State) (a : Addr) (w : BitVec 16) : State :=
  (s.busWrite a (w.extractLsb' 0 8)).busWrite (a + 1) (w.extractLsb' 8 8)

theorem execAll_poke16 (s : State) (a : Addr) (w : BitVec 16) :
    execAll (Pseudo.expand (.poke16 a w)) s = .next (s.poke16 a w) := rfl

@[simp] theorem poke16_launch (s : State) (a : Addr) (w : BitVec 16) : (s.poke16 a w).launch = s.launch := by
  simp [State.poke16]

/-- A store changes memory only, if anything. -/
theorem busWrite_setMem (s : State) (a : Addr) (v : Byte) (m : List Host.Cell) :
    { s.busWrite a v with mem := m } = { s with mem := m } := by
  unfold State.busWrite
  split <;> rfl

theorem poke16_setMem (s : State) (a : Addr) (w : BitVec 16) : { s.poke16 a w with mem := s.mem } = s := by
  rw [State.poke16, busWrite_setMem, busWrite_setMem]

theorem readByte_poke16 (s : State) (a : Addr) (w : BitVec 16) (b : Addr) :
    (s.poke16 a w).readByte b =
      if b = a + 1 ∧ 0x4000 ≤ (a + 1).toNat then w.extractLsb' 8 8
      else if b = a ∧ 0x4000 ≤ a.toNat then w.extractLsb' 0 8 else s.readByte b := by
  rw [State.poke16, readByte_busWrite, readByte_busWrite]

theorem addr_ne_succ (a : Addr) : a ≠ a + 1 := fun h => absurd (left_eq_add.mp h) (by decide)

theorem readByte_poke16_low (s : State) (a : Addr) (w : BitVec 16) :
    (s.poke16 a w).readByte a = if 0x4000 ≤ a.toNat then w.extractLsb' 0 8 else s.readByte a := by
  rw [readByte_poke16, if_neg fun h => addr_ne_succ a h.1]
  simp only [true_and]

theorem readByte_poke16_high (s : State) (a : Addr) (w : BitVec 16) :
    (s.poke16 a w).readByte (a + 1) =
      if 0x4000 ≤ (a + 1).toNat then w.extractLsb' 8 8 else s.readByte (a + 1) := by
  rw [readByte_poke16, if_neg (c := a + 1 = a ∧ _) fun h => addr_ne_succ a h.1.symm]
  simp only [true_and]

theorem readByte_poke16_other (s : State) {a b : Addr} (w : BitVec 16) (ha : b ≠ a) (hsucc : b ≠ a + 1) :
    (s.poke16 a w).readByte b = s.readByte b := by
  rw [readByte_poke16, if_neg fun h => hsucc h.1, if_neg fun h => ha h.1]

theorem toNat_addr_succ {a : Addr} (h : a ≠ 0xFFFF) : (a + 1).toNat = a.toNat + 1 := by
  have hlast : a.toNat ≠ 65535 := fun e => h (BitVec.eq_of_toNat_eq e)
  have hlt : a.toNat < 65536 := a.isLt
  change (a.toNat + 1) % 65536 = a.toNat + 1
  omega

/-- Both bytes are stored when the first lies at or above 0x4000 and the second does not wrap. -/
theorem readPointer_poke16 (s : State) (w : BitVec 16) (hlow : 0x4000 ≤ s.launch.cfg.dfilePtrAddr.toNat)
    (hlast : s.launch.cfg.dfilePtrAddr ≠ 0xFFFF) : (s.poke16 s.launch.cfg.dfilePtrAddr w).readPointer = w := by
  have hhigh : 0x4000 ≤ (s.launch.cfg.dfilePtrAddr + 1).toNat := by rw [toNat_addr_succ hlast]; omega
  rw [State.readPointer, poke16_launch, readByte_poke16_low, readByte_poke16_high, if_pos hlow, if_pos hhigh]
  exact BitVec.extractLsb'_append_extractLsb'

/-- Settles O60: each expansion is performed by the shared operations, whose laws give the row, the bits and the bytes. -/
theorem pseudoOperationsExpand : Obligations.PseudoOperationsExpand := by
  refine ⟨fun s p port _ => ?_, fun s k => ?_, fun s a w => ?_⟩
  · rw [← oneRowSelect_eq]
    exact ⟨rfl, rfl, _, execAll_scan s p, rfl⟩
  · exact ⟨rfl, _, rfl, fun b hb => matrixBit_releaseKey (s.pressKey k) k hb⟩
  · refine ⟨rfl, _, execAll_poke16 s a w, readByte_poke16_low s a w, readByte_poke16_high s a w,
      fun b => readByte_poke16_other s w, poke16_setMem s a w, ?_⟩
    rintro rfl hlow hlast
    exact readPointer_poke16 s w hlow hlast

end Sys2Proof.Machine
end

section
/-! Proofs about the bus adapter (40_bus_adapter): the protected write, the row scan, and the laws of the bus family. -/
namespace Sys2Proof.Machine

/-! ### The protected write -/

theorem busWrite_of_lt {a : Addr} (h : a.toNat < 0x4000) (s : State) (v : Byte) : s.busWrite a v = s := if_pos h

theorem readByte_busWrite_same {a : Addr} (h : 0x4000 ≤ a.toNat) (s : State) (v : Byte) :
    (s.busWrite a v).readByte a = v := by
  rw [readByte_busWrite, if_pos ⟨rfl, h⟩]

theorem readByte_busWrite_other {a b : Addr} (h : b ≠ a) (s : State) (v : Byte) :
    (s.busWrite a v).readByte b = s.readByte b := by
  rw [readByte_busWrite, if_neg fun hab => h hab.1]

/-- A raw store of the byte already there, memory being canonical. -/
theorem memWrite_memRead {l : Launch} {m : List Host.Cell} (h : Memory.wf l m = true) {a : Nat} (ha : a < 65536) :
    memWrite l m a (memRead l m a) = m := by
  refine Memory.ext_read (Memory.wf_memWrite h ha _) h fun b _ => ?_
  rw [memRead_memWrite]
  split
  · next hba => rw [hba]
  · rfl

theorem storeByte_readByte {s : State} (h : Memory.wf s.launch s.mem = true) (a : Addr) :
    s.storeByte a (s.readByte a) = s := by
  rw [State.storeByte, State.readByte, memWrite_memRead h a.isLt]

theorem busWrite_readByte {s : State} (h : Memory.wf s.launch s.mem = true) (a : Addr) :
    s.busWrite a (s.readByte a) = s := by
  rw [State.busWrite, storeByte_readByte h, ite_self]

/-- Settles O10: WRITE is the protected store, which changes memory only, and there the addressed byte only. -/
theorem writeStoresAboveBoundary : Obligations.WriteStoresAboveBoundary := fun s a v =>
  ⟨s.busWrite a v, exec_write a v s, fun h => readByte_busWrite_same h s v, fun h => busWrite_of_lt h s v,
    fun _ hb => readByte_busWrite_other hb s v, busWrite_setMem s a v s.mem⟩

/-- Settles O11: canonical memories that read alike are equal, and a write of the byte already there changes no read. -/
theorem writeSameByteChangesNothing : Obligations.WriteSameByteChangesNothing := by
  intro s a h
  rw [exec_write, busWrite_readByte h]

/-! ### The row scan -/

theorem rowScan_of_selrow_some {v : Byte} {p : Row} (h : selrow v = some p) (k : Matrix) :
    rowScan k v = matrixRow k p := by
  rw [rowScan, h]

theorem rowScan_allOnes (k : Matrix) : rowScan k 0xFF = 0xFF := by
  rw [rowScan, (selrow_eq_none_iff 0xFF).mpr rfl]

theorem rowScan_eq_getD (k : Matrix) (v : Byte) : rowScan k v = ((selrow v).map (matrixRow k)).getD 0xFF := by
  cases h : selrow v with
  | none => rw [(selrow_eq_none_iff v).mp h, rowScan_allOnes]; rfl
  | some p => exact rowScan_of_selrow_some h k

/-- A scan shows bits 7 to 5 as the matrix holds them (10_state R24). -/
theorem rowScan_highBits {k : Matrix} (hk : ∀ row : Row, matrixRow k row &&& 0xE0 = 0xE0) (v : Byte) :
    rowScan k v &&& 0xE0 = 0xE0 := by
  cases h : selrow v with
  | none => rw [(selrow_eq_none_iff v).mp h, rowScan_allOnes]; rfl
  | some p => rw [rowScan_of_selrow_some h]; exact hk p

/-- A value that selects row `p` has bit `p` clear and every bit below it set; the `7 - p` above are free (R115). -/
theorem countP_selrow : ∀ p : Row,
    (List.range 256).countP (fun n => selrow (BitVec.ofNat 8 n) == some p) = 2 ^ (7 - p.val) := by decide +kernel

/-- Settles O12: the byte is the row scan, in its three cases. -/
theorem portinKbdReturnsLowestRow : Obligations.PortinKbdReturnsLowestRow := by
  intro s port v
  refine ⟨rowScan s.kbd v, exec_portinKbd port v s, fun p hclear hbelow => ?_, ?_, fun hk => rowScan_highBits hk v⟩
  · exact rowScan_of_selrow_some ((selrow_eq_some_iff v p).mpr ⟨hclear, hbelow⟩) s.kbd
  · rintro rfl
    exact rowScan_allOnes s.kbd

/-- Settles O13: the laws of the selected row, its scan, and its count. -/
theorem selectedRowCounts : Obligations.SelectedRowCounts := by
  refine ⟨selrow_eq_none_iff, selrow_eq_some_iff, fun s port v => ?_, countP_selrow⟩
  rw [exec_portinKbd, State.keyboardRead, State.returnByte, rowScan_eq_getD]

/-! ### READ, PORTIN.FLOAT and PORTOUT -/

/-- Settles O9: READ returns the byte and nothing else. -/
theorem readReturnsMemoryByte : Obligations.ReadReturnsMemoryByte := fun s a => exec_read a s

/-- Settles O14: the floating read looks at no operand. -/
theorem portinFloatReturnsAllOnes : Obligations.PortinFloatReturnsAllOnes := fun s port v => exec_portinFloat port v s

/-- Settles O15: PORTOUT answers the state it is given. -/
theorem portoutChangesNothing : Obligations.PortoutChangesNothing := fun s port v hi => exec_portout port v hi s

/-! ### The laws of the family -/

theorem execAll_write_read (s : State) (a : Addr) (v : Byte) :
    execAll [.write a v, .read a] s = .next ((s.busWrite a v).busRead a) := rfl

theorem execAll_read (s : State) (a : Addr) : execAll [.read a] s = .next (s.busRead a) := rfl

/-- READ, PORTIN and PORTOUT leave everything but the CPU core as it is (R118 (e)). -/
theorem exec_bus_setCpu (s : State) {i : Instr} {a : Addr} {v port rowsel hi : Byte}
    (h : i ∈ [Instr.read a, .portinKbd port rowsel, .portinFloat port rowsel, .portout port v hi]) :
    ∃ t, exec i s = .next t ∧ { t with cpu := s.cpu } = s := by
  simp only [List.mem_cons, List.not_mem_nil, or_false] at h
  obtain rfl | rfl | rfl | rfl := h
  · exact ⟨_, exec_read a s, rfl⟩
  · exact ⟨_, exec_portinKbd port rowsel s, rfl⟩
  · exact ⟨_, exec_portinFloat port rowsel s, rfl⟩
  · exact ⟨_, exec_portout port v hi s, rfl⟩

/-- No bus operation changes the matrix (R118 (g)): WRITE changes memory at most, the others the CPU core at most. -/
theorem exec_bus_kbd (s : State) {i : Instr} {a : Addr} {v port rowsel hi : Byte}
    (h : i ∈ [Instr.read a, .write a v, .portinKbd port rowsel, .portinFloat port rowsel, .portout port v hi]) :
    ∃ t, exec i s = .next t ∧ t.kbd = s.kbd := by
  obtain rfl | hne := eq_or_ne i (.write a v)
  · exact ⟨_, exec_write a v s, busWrite_kbd s a v⟩
  · have hother : i ∈ [Instr.read a, .portinKbd port rowsel, .portinFloat port rowsel, .portout port v hi] := by
      simpa [hne] using h
    obtain ⟨t, ht, hkept⟩ := exec_bus_setCpu s hother
    have hkbd := congrArg State.kbd hkept
    exact ⟨t, ht, hkbd⟩

/-- Settles O16: the laws of the protected write and of the row scan, and what each operation leaves unchanged. -/
theorem busFamilyLaws : Obligations.BusFamilyLaws := by
  intro s a v port rowsel hi
  refine ⟨fun h => ?_, fun h => ⟨_, execAll_write_read s a v, ?_⟩, fun p => ⟨_, exec_portinKbd port _ s, ?_⟩,
    ⟨_, exec_portinKbd port _ s, ?_⟩, ⟨_, exec_portinFloat port rowsel s, rfl⟩, fun i => exec_bus_setCpu s,
    ⟨_, exec_write a v s, busWrite_setMem s a v s.mem, fun b hb => readByte_busWrite_other hb s v⟩,
    fun i => exec_bus_kbd s⟩
  · rw [execAll_write_read, busWrite_of_lt h, execAll_read]
  · rw [State.busRead, readByte_busWrite_same h, returnByte_cpu, busWrite_cpu]
  · rw [State.keyboardRead, returnByte_cpu, ← oneRowSelect, rowScan_oneRowSelect]
  · rw [State.keyboardRead, returnByte_cpu, rowScan_allOnes]

end Sys2Proof.Machine
end

section
/-! Proofs about the keyboard matrix (41_keyboard_matrix): what KEYDOWN and KEYUP make of the matrix, and that the
latest operation on a key decides the bits it drives. -/
namespace Sys2Proof.Machine

/-! ### The matrix after a key operation -/

theorem foldl_drivenBits_eraseKey (c : Config) (f : Matrix → Row × Col → Matrix) (m : Matrix) :
    (drivenBits c c.eraseKey).foldl f m = f (f m (0, 0)) (4, 0) := by
  rw [drivenBits_eraseKey]
  rfl

theorem foldl_drivenBits_mapped {c : Config} {k : KeyId} (hk : k ≠ c.eraseKey) {b : Row × Col}
    (h : keyTableEntry c k = some b) (f : Matrix → Row × Col → Matrix) (m : Matrix) :
    (drivenBits c k).foldl f m = f m b := by
  rw [drivenBits_mapped hk h, List.foldl_cons, List.foldl_nil]

theorem foldl_drivenBits_unmapped {c : Config} {k : KeyId} (hk : k ≠ c.eraseKey) (h : keyTableEntry c k = none)
    (f : Matrix → Row × Col → Matrix) (m : Matrix) : (drivenBits c k).foldl f m = m := by
  rw [drivenBits_unmapped hk h, List.foldl_nil]

theorem pressBit_eq_set (m : Matrix) (r : Fin 8) (c : Fin 5) :
    pressBit m (r, c) = m.set r.val (m[r.val] &&& ~~~((1 : Byte) <<< c.val)) := rfl

theorem releaseBit_eq_set (m : Matrix) (r : Fin 8) (c : Fin 5) :
    releaseBit m (r, c) = m.set r.val (m[r.val] ||| ((1 : Byte) <<< c.val)) := rfl

/-- The second bit of the erase key lies in another row than the first, so the first write does not reach it
(R132). -/
theorem row4_set_row0 (m : Matrix) (v : Byte) : (m.set 0 v)[4] = m[4] :=
  Vector.getElem_set_ne _ _ (by decide)

theorem pressBit_erase (m : Matrix) :
    pressBit (pressBit m (0, 0)) (4, 0) = (m.set 0 (m[0] &&& 0xFE)).set 4 (m[4] &&& 0xFE) := by
  rw [← row4_set_row0 m (m[0] &&& 0xFE)]
  rfl

theorem releaseBit_erase (m : Matrix) :
    releaseBit (releaseBit m (0, 0)) (4, 0) = (m.set 0 (m[0] ||| 0x01)).set 4 (m[4] ||| 0x01) := by
  rw [← row4_set_row0 m (m[0] ||| 0x01)]
  rfl

theorem pressKey_unmapped {s : State} {k : KeyId} (hk : k ≠ s.launch.cfg.eraseKey)
    (h : keyTableEntry s.launch.cfg k = none) : s.pressKey k = s := by
  rw [State.pressKey, foldl_drivenBits_unmapped hk h]

theorem releaseKey_unmapped {s : State} {k : KeyId} (hk : k ≠ s.launch.cfg.eraseKey)
    (h : keyTableEntry s.launch.cfg k = none) : s.releaseKey k = s := by
  rw [State.releaseKey, foldl_drivenBits_unmapped hk h]

/-- Settles O17: the bits the key drives are those of the erase key, of its table entry, or none. -/
theorem keydownClearsDrivenBits : Obligations.KeydownClearsDrivenBits := by
  intro s k
  refine ⟨s.pressKey k, exec_keydown k s, rfl, ?_, fun hk => ⟨fun r c h => ?_, pressKey_unmapped hk⟩⟩
  · rintro rfl
    rw [pressKey_kbd, foldl_drivenBits_eraseKey, pressBit_erase]
  · rw [pressKey_kbd, foldl_drivenBits_mapped hk h, pressBit_eq_set]

/-- Settles O18: as for KEYDOWN, each bit set instead of cleared. -/
theorem keyupSetsDrivenBits : Obligations.KeyupSetsDrivenBits := by
  intro s k
  refine ⟨s.releaseKey k, exec_keyup k s, rfl, ?_, fun hk => ⟨fun r c h => ?_, releaseKey_unmapped hk⟩⟩
  · rintro rfl
    rw [releaseKey_kbd, foldl_drivenBits_eraseKey, releaseBit_erase]
  · rw [releaseKey_kbd, foldl_drivenBits_mapped hk h, releaseBit_eq_set]

/-! ### The latest operation on a key decides

Stated for a key event, so that each law is proved once for KEYDOWN and KEYUP. -/

/-- A key event makes the bits its key drives 0 on a press and 1 on a release, and keeps every other bit of a row, the
meaningless ones too (R139). -/
theorem matrixBit_apply (c : Config) (m : Matrix) (e : KeyEvent) (row : Row) (col : Nat) :
    matrixBit (KeyEvent.apply c m e) row col =
      if ∃ b ∈ drivenBits c e.1, b.1 = row ∧ b.2.val = col then !e.2 else matrixBit m row col := by
  obtain ⟨key, pressed⟩ := e
  simp only [eq_comm (b := row), eq_comm (b := col)]
  cases pressed with
  | true => exact keyBit_foldl_pressBit (drivenBits c key) m row col
  | false => exact keyBit_foldl_releaseBit (drivenBits c key) m row col

theorem KeyEvent.apply_dummy (c : Config) (m : Matrix) (e : KeyEvent) : (KeyEvent.apply c m e)[8] = m[8] := by
  obtain ⟨key, pressed⟩ := e
  cases pressed with
  | true => exact foldl_pressBit_dummy (drivenBits c key) m
  | false => exact foldl_releaseBit_dummy (drivenBits c key) m

/-- An event whose key's bits already are as it makes them changes nothing (R137). -/
theorem KeyEvent.apply_eq_self {c : Config} {m : Matrix} {e : KeyEvent}
    (h : ∀ b ∈ drivenBits c e.1, matrixBit m b.1 b.2.val = !e.2) : KeyEvent.apply c m e = m := by
  refine matrix_ext (fun row col _ => (matrixBit_apply c m e row col).trans ?_) (KeyEvent.apply_dummy c m e)
  split
  · next hdriven =>
    obtain ⟨b, hb, rfl, rfl⟩ := hdriven
    exact (h b hb).symm
  · rfl

/-- Of two events of one key in a row only the second shows (R137, R138). -/
theorem KeyEvent.apply_apply (c : Config) (m : Matrix) (k : KeyId) (p q : Bool) :
    KeyEvent.apply c (KeyEvent.apply c m (k, p)) (k, q) = KeyEvent.apply c m (k, q) := by
  refine matrix_ext (fun row col _ => ?_) (by simp only [KeyEvent.apply_dummy])
  change matrixBit _ row col = matrixBit _ row col
  rw [matrixBit_apply, matrixBit_apply, matrixBit_apply]
  split <;> rfl

theorem execAll_keyEvent_keyEvent (s : State) (k : KeyId) (p q : Bool) :
    execAll [KeyEvent.op (k, p), KeyEvent.op (k, q)] s = execAll [KeyEvent.op (k, q)] s := by
  refine (execAll_keyEvents [(k, p), (k, q)] s).trans (.trans ?_ (execAll_keyEvents [(k, q)] s).symm)
  simp only [List.foldl_cons, List.foldl_nil, KeyEvent.apply_apply]

/-- KEYUP of a key whose bits are all 1 (R137). -/
theorem releaseKey_of_released {s : State} {k : KeyId}
    (h : ∀ b ∈ drivenBits s.launch.cfg k, matrixBit s.kbd b.1 b.2.val = true) : s.releaseKey k = s := by
  have hkbd : (drivenBits s.launch.cfg k).foldl releaseBit s.kbd = s.kbd := KeyEvent.apply_eq_self (e := (k, false)) h
  rw [State.releaseKey, hkbd]

/-- KEYDOWN then KEYUP of a key is its KEYUP alone (R138). -/
theorem execAll_press_release (s : State) (k : KeyId) :
    execAll [.keydown k, .keyup k] s = .next (s.releaseKey k) :=
  execAll_keyEvent_keyEvent s k true false

/-- Settles O19: of two operations on a key only the second shows, and a KEYUP sets bits that are 1 already. -/
theorem keyOperationsIdempotent : Obligations.KeyOperationsIdempotent := by
  intro s k
  refine ⟨execAll_keyEvent_keyEvent s k true true, execAll_keyEvent_keyEvent s k false false, fun h => ?_⟩
  rw [exec_keyup, releaseKey_of_released h]

/-- Settles O20: the press leaves no trace after the release, which sets every bit the key drives. -/
theorem pressReleaseRestoresReleasedBits : Obligations.PressReleaseRestoresReleasedBits := by
  intro s k
  refine ⟨fun h => ?_, s.releaseKey k, execAll_press_release s k, fun b hb => matrixBit_releaseKey s k hb⟩
  rw [execAll_press_release, releaseKey_of_released h]

/-- Settles O21: the law of a key event bit by bit, for the press and for the release. -/
theorem keyOperationsTouchOnlyDrivenBits : Obligations.KeyOperationsTouchOnlyDrivenBits := by
  intro s k
  have hbit (p : Bool) := matrixBit_apply s.launch.cfg s.kbd (k, p)
  have hdummy (p : Bool) := KeyEvent.apply_dummy s.launch.cfg s.kbd (k, p)
  exact ⟨_, _, exec_keyEvent s (k, true), exec_keyEvent s (k, false),
    fun row col h => ⟨(hbit true row col).trans (if_pos h), (hbit false row col).trans (if_pos h)⟩,
    fun row col h => ⟨(hbit true row col).trans (if_neg h), (hbit false row col).trans (if_neg h)⟩,
    hdummy true, hdummy false, drivenBits_eraseKey s.launch.cfg⟩

end Sys2Proof.Machine
end

section
/-! Proofs about the display decoder (42_display_decoder): where the cells' bytes lie, every pixel of the frame, the screen
of a solid glyph, and what DECODE leaves unchanged. -/
namespace Sys2Proof.Machine

/-! ### The cells and the pixels -/

theorem cellAddr_toNat (d : Addr) (r c : Nat) : (cellAddr d r c).toNat = (d.toNat + 1 + 33 * r + c) % 65536 := by
  have hsum : d.toNat + (1 + 33 * r + c) = d.toNat + 1 + 33 * r + c := by omega
  rw [cellAddr, lineStride_eq, BitVec.toNat_add, BitVec.toNat_ofNat, Nat.add_mod_mod, hsum]
  rfl

/-- Settles O25: the walk reads the byte at the cell's address, and that address is a sum modulo 65536. -/
theorem cellAddressClosedForm : Obligations.CellAddressClosedForm := by
  intro s r c hr hc
  rw [displayByte_displayCells s hr hc, State.readByte, cellAddr_toNat]

/-- A tile is indexed modulo its size already (10_state R29). -/
theorem tilePixel_mod (atlas : Atlas) (t : Byte) (y x : Nat) :
    tilePixel atlas t (y % 16) (x % 16) = tilePixel atlas t y x := by
  simp only [tilePixel, cellPx_eq, Nat.mod_mod]

/-- A pixel of the frame is a pixel of the tile its cell's byte names (42_display_decoder R153). -/
theorem displayFrame_pixel (s : State) {y x : Nat} (hy : y < 384) (hx : x < 512) :
    (displayFrame s)[y][x] = tilePixel s.atlas (s.readByte (cellAddr s.readPointer (y / 16) (x / 16))) y x := by
  have hbyte := displayByte_displayCells s (r := y / 16) (c := x / 16) (by omega) (by omega)
  simp only [displayFrame, getElem_tabulate, cellPx_eq, hbyte, tilePixel_mod]

/-- Settles O26: DECODE leaves the frame in FB, whose pixels are tile pixels. -/
theorem decodeDrawsEveryPixel : Obligations.DecodeDrawsEveryPixel := fun s =>
  ⟨_, _, exec_decode s, displayPass_fb s, fun _ _ => displayFrame_pixel s⟩

/-! ### A solid glyph -/

/-- Every bit of a row byte 0xFF is 1, in either bit order (43_font_rasterizer R173). -/
theorem glyphBit_allOnes (c : Config) {x : Nat} (hx : x < 8) : glyphBit c 0xFF x = true := by
  have hbit : ∀ i < 8, (0xFF : Byte).getLsbD i = true := by decide
  refine hbit _ ?_
  split
  · rw [glyphPx_eq]; omega
  · exact hx

/-- A code whose table rows are all 0xFF has a normal tile of one colour (43_font_rasterizer R175). -/
theorem glyphTile_solid {l : Launch} {k : Nat} (hsolid : ∀ y < 8, glyphByte l k y = 0xFF) (set clear : Colour)
    {y x : Nat} (hy : y < 16) (hx : x < 16) : (glyphTile l k set clear)[y][x] = set := by
  rw [glyphTile_pixel l k set clear y x hy hx, hsolid (y / 2) (by omega), if_pos (glyphBit_allOnes l.cfg (by omega))]

/-- The normal tile of a painted code (43_font_rasterizer R171). -/
theorem tilePixel_rasterisedAtlas_normal {l : Launch} (hlegal : legalConfig l.cfg = true) {t : Byte}
    (ht : t.toNat < l.cfg.nChars) (y x : Nat) :
    tilePixel (rasterisedAtlas l) t y x =
      ((glyphTile l t.toNat l.cfg.ink l.cfg.paper)[y % 16]'(Nat.mod_lt _ (by decide)))[x % 16]'(
        Nat.mod_lt _ (by decide)) := by
  simp only [tilePixel, cellPx_eq, getElem_rasterisedAtlas hlegal t.toNat t.isLt, if_pos ht]

/-- Settles O29: every cell's byte is 0, a legal configuration paints code 0, and its normal tile is solid INK. -/
theorem solidGlyphFillsScreen : Obligations.SolidGlyphFillsScreen := by
  intro s hlegal hatlas hrom hcells
  refine ⟨_, _, exec_decode s, displayPass_fb s, fun y x hy hx => ?_⟩
  have hconfig : legalConfig s.launch.cfg = true := (Bool.and_eq_true_iff.mp hlegal).1
  have hpainted : (0 : Byte).toNat < s.launch.cfg.nChars := by
    obtain ⟨-, -, -, -, -, -, -, -, hnChars, -⟩ := legalConfig_iff.mp hconfig
    exact hnChars
  have hsolid : ∀ y < 8, glyphByte s.launch 0 y = 0xFF := hrom
  have hcell : s.readByte (cellAddr s.readPointer (y / 16) (x / 16)) = 0 :=
    hcells _ (by omega) _ (by omega)
  rw [displayFrame_pixel s hy hx, hcell, hatlas, tilePixel_rasterisedAtlas_normal hconfig hpainted]
  exact glyphTile_solid hsolid _ _ (Nat.mod_lt _ (by decide)) (Nat.mod_lt _ (by decide))

/-! ### The pass as loop step 3 and as a pure function -/

theorem displayPass_of_decode {s : State} (hp : s.phase = .decode) :
    s.displayPass = { s.redraw.spendTime with phase := .pace } := if_pos hp

theorem displayPass_of_ne_decode {s : State} (hp : s.phase ≠ .decode) : s.displayPass = s.redraw := if_neg hp

/-- DECODE writes FB, the phase and the clock at most (42_display_decoder R150, R158). -/
theorem displayPass_frame (s : State) :
    { s.displayPass with fb := s.fb, phase := s.phase, clock := s.clock } = s := by
  unfold State.displayPass
  split <;> rfl

/-- Settles O27: the phase and the clock move in phase DECODE only (44_frame_scheduler R191). -/
theorem decodeFrame : Obligations.DecodeFrame := by
  intro s
  refine ⟨_, exec_decode s, displayPass_frame s, fun hp => ?_, fun hp => ?_⟩
  · rw [displayPass_of_decode hp]
    exact ⟨rfl, rfl⟩
  · rw [displayPass_of_ne_decode hp]
    exact ⟨rfl, rfl⟩

end Sys2Proof.Machine
end

section
/-! Proofs about the glyph rasteriser (43_font_rasterizer): the two things RASTERIZE can do under a legal launch, the
pixels of the painted and of the other tiles, and what the atlas depends on. -/
namespace Sys2Proof.Machine

/-! ### What RASTERIZE answers -/

theorem exec_rasterize_of_ok {s : State} (hlegal : legalLaunch s.launch = true) (ha : s.launch.atlasOk = true) :
    exec .rasterize s = .next { s with atlas := rasterisedAtlas s.launch } := by
  rw [exec_rasterize, ifLegalLaunch_of_legal hlegal, buildAtlas_of_ok ha]

theorem exec_rasterize_of_fail {s : State} (hlegal : legalLaunch s.launch = true) (ha : s.launch.atlasOk = false) :
    exec .rasterize s = .next (s.raiseFatalInit .atlas) := by
  rw [exec_rasterize, ifLegalLaunch_of_legal hlegal, buildAtlas_of_fail ha]

/-- Settles O52: the failing operation is `raiseFatalInit`, which leaves EVQ, the CPU core and `quit` alone. -/
theorem failedRasterizeReports : Obligations.FailedRasterizeReports := fun s hlegal ha =>
  ⟨_, exec_rasterize_of_fail hlegal ha, raiseFatalInit_phase s _, raiseFatalInit_failure s _,
    raiseFatalInit_exitStatus s _, raiseFatalInit_fb s _, raiseFatalInit_evq s _, raiseFatalInit_cpu s _,
    raiseFatalInit_quit s _⟩

/-! ### The three kinds of tiles -/

section
variable {l : Launch} (hlegal : legalLaunch l = true)
include hlegal

theorem legalConfig_of_legalLaunch : legalConfig l.cfg = true := (Bool.and_eq_true_iff.mp hlegal).1

theorem getElem_rasterisedAtlas_normal {k : Nat} (hk : k < l.cfg.nChars) (hk' : k < 256) :
    (rasterisedAtlas l)[k] = glyphTile l k l.cfg.ink l.cfg.paper := by
  rw [getElem_rasterisedAtlas (legalConfig_of_legalLaunch hlegal), if_pos hk]

/-- The inverse tiles lie above the normal ones, so none of them is overwritten (00_scope R8 (d)). -/
theorem getElem_rasterisedAtlas_inverse {k : Nat} (hk : k < l.cfg.nChars) (hki : k + l.cfg.invOffset < 256) :
    (rasterisedAtlas l)[k + l.cfg.invOffset] = glyphTile l k l.cfg.paper l.cfg.ink := by
  have hconfig := legalConfig_of_legalLaunch hlegal
  obtain ⟨-, -, -, -, habove, -⟩ := legalConfig_iff.mp hconfig
  rw [getElem_rasterisedAtlas hconfig, if_neg (by omega), if_pos (by omega), Nat.add_sub_cancel]

theorem getElem_rasterisedAtlas_unpainted {n : Nat} (hn : n < 256) (hnormal : l.cfg.nChars ≤ n)
    (hinverse : ¬ (l.cfg.invOffset ≤ n ∧ n < l.cfg.invOffset + l.cfg.nChars)) :
    (rasterisedAtlas l)[n] = uniformTile l.cfg.atlasFill := by
  rw [getElem_rasterisedAtlas (legalConfig_of_legalLaunch hlegal), if_neg (Nat.not_lt.mpr hnormal), if_neg hinverse]

theorem ink_ne_paper : l.cfg.ink ≠ l.cfg.paper := by
  obtain ⟨-, -, -, -, -, -, hne, -⟩ := legalConfig_iff.mp (legalConfig_of_legalLaunch hlegal)
  exact hne

end

/-- The source bit of column `x` of row `y` of code `k`, in the numbers of 43_font_rasterizer R172, R173. -/
theorem glyphBit_glyphByte (l : Launch) (k y x : Nat) :
    glyphBit l.cfg (glyphByte l k y) x =
      (romByte l (l.cfg.charTableOffset + 8 * k + y)).getLsbD (if l.cfg.glyphMsbLeft then 7 - x else x) := rfl

/-- Settles O30: the tiles of a code are its glyph in INK on PAPER and in PAPER on INK, and INK differs from PAPER. -/
theorem rasterizePaintsGlyphs : Obligations.RasterizePaintsGlyphs := by
  intro s hlegal ha
  refine ⟨_, exec_rasterize_of_ok hlegal ha, rfl, fun k y x hk hy hx hk' hki bit hbit => ?_⟩
  rw [← glyphBit_glyphByte] at hbit
  have hnormal : (rasterisedAtlas s.launch)[k][y][x] = if bit then s.launch.cfg.ink else s.launch.cfg.paper := by
    rw [getElem_rasterisedAtlas_normal hlegal hk hk', glyphTile_pixel _ _ _ _ _ _ hy hx, hbit]
  have hinverse : (rasterisedAtlas s.launch)[k + s.launch.cfg.invOffset][y][x] =
      if bit then s.launch.cfg.paper else s.launch.cfg.ink := by
    rw [getElem_rasterisedAtlas_inverse hlegal hk hki, glyphTile_pixel _ _ _ _ _ _ hy hx, hbit]
  refine ⟨hnormal, hinverse, ?_⟩
  rw [hnormal, hinverse]
  cases bit with
  | true => exact ink_ne_paper hlegal
  | false => exact (ink_ne_paper hlegal).symm

/-- Settles O31: a tile of no code is the fill tile. -/
theorem rasterizeFillsOtherTiles : Obligations.RasterizeFillsOtherTiles := by
  intro s hlegal ha
  refine ⟨_, exec_rasterize_of_ok hlegal ha, fun n y x hn hy hx hnormal hinverse => ?_⟩
  rw [getElem_rasterisedAtlas_unpainted hlegal hn hnormal hinverse, uniformTile_pixel _ _ _ hy hx]

/-! ### What the atlas depends on, and what writes it -/

/-- The atlas is a function of the launch alone, and RASTERIZE leaves the launch. -/
theorem exec_rasterize_again {s t : State} (ha : s.launch.atlasOk = true) (h : exec .rasterize s = .next t) :
    exec .rasterize t = .next t := by
  obtain ⟨hlegal, rfl⟩ := ifLegalLaunch_eq_next h
  rw [buildAtlas_of_ok ha]
  exact exec_rasterize_of_ok (s := { s with atlas := rasterisedAtlas s.launch }) hlegal ha

theorem execAll_rasterize_rasterize {s : State} (ha : s.launch.atlasOk = true) :
    execAll [.rasterize, .rasterize] s = execAll [.rasterize] s := by
  cases h : exec .rasterize s with
  | next t => simp only [execAll, h, exec_rasterize_again ha h]
  | fault r => simp only [execAll, h]
  | refused r => simp only [execAll, h]

theorem exec_keeps_atlas {i : Instr} {s t : State} (hras : i ≠ .rasterize) (hreset : i ≠ .reset)
    (h : exec i s = .next t) : t.atlas = s.atlas := by
  cases i with
  | write a v => cases h; exact busWrite_atlas s a v
  | read | portinKbd | portinFloat | portout | keydown | keyup | quit => cases h; rfl
  | decode => cases h; exact displayPass_atlas s
  | rasterize => exact absurd rfl hras
  | reset => exact absurd rfl hreset
  | frame =>
    obtain ⟨-, rfl⟩ := exec_frame_eq_next_iff.mp h
    rw [paceFrame_atlas, displayPass_atlas, drainQueue_atlas, cpuPhase_atlas]
  | runcpu =>
    obtain ⟨-, rfl⟩ := runCpu_eq_next_iff.mp h
    exact cpuPhase_atlas s
  | drain => cases h; exact drainQueue_atlas s
  | pace => cases h; exact paceFrame_atlas s

/-- Settles O32: the atlas is a function of the table's bytes and seven parameters. -/
theorem rasterizeIsDeterministic : Obligations.RasterizeIsDeterministic := by
  refine ⟨?_, fun s ha => execAll_rasterize_rasterize ha, fun i s t => exec_keeps_atlas⟩
  intro s u hs hu hsOk huOk hoffset hnChars hinv hink hpaper hfill hmsb hbytes
  exact ⟨_, _, exec_rasterize_of_ok hs hsOk, exec_rasterize_of_ok hu huOk,
    rasterisedAtlas_congr hoffset hnChars hinv hink hpaper hfill hmsb hbytes⟩

end Sys2Proof.Machine
end

section
/-! Proofs about the frame scheduler (44_frame_scheduler): RUNCPU and its budget, DRAIN, PACE, the frame as its four
steps, and where the loop can go. -/
namespace Sys2Proof.Machine

/-! ### RUNCPU -/

@[simp] theorem cpuPhase_cpu (s : State) : s.cpuPhase.cpu = (State.cpuLoop s.cpu.cyc s.cpuFuel s).cpu :=
  (congrArg State.cpu (cpuLoop_setClock s.cpu.cyc s.cpuFuel s { s.clock with t0 := s.clock.now }) :)

/-- The iteration's timer starts and the step takes its time (44_frame_scheduler R190, log 19). -/
theorem cpuPhase_clock (s : State) :
    s.cpuPhase.clock =
      { s.clock with
        t0 := s.clock.now, now := s.clock.now + s.clock.durations.headD 0, durations := s.clock.durations.tail } := by
  have hclock := (SameBlock.cpuLoop s.cpu.cyc s.cpuFuel s.startTimer).clock
  simp only [State.cpuPhase, spendTime_clock, hclock, startTimer_clock]

/-- But for the phase and the clock, loop step 1 is the loop of CPU steps. -/
theorem cpuPhase_eq_cpuLoop (s : State) :
    { s.cpuPhase with phase := s.phase, clock := s.clock } = State.cpuLoop s.cpu.cyc s.cpuFuel s := by
  have hloop := SameBlock.cpuLoop s.cpu.cyc s.cpuFuel s
  have htimer : State.cpuLoop s.cpu.cyc s.cpuFuel s.startTimer = (State.cpuLoop s.cpu.cyc s.cpuFuel s).setClock _ :=
    cpuLoop_setClock s.cpu.cyc s.cpuFuel s { s.clock with t0 := s.clock.now }
  rw [State.cpuPhase, htimer, ← hloop.phase, ← hloop.clock]
  rfl

theorem runCpu_eq_fault_iff {s : State} {r : Fault} :
    s.runCpu = .fault r ↔ s.cpuProgress = false ∧ r = .cpuNotCounting := by
  unfold State.runCpu
  cases s.cpuProgress <;> simp [eq_comm]

theorem runCpu_of_no_progress {s : State} (h : s.cpuProgress = false) : s.runCpu = .fault .cpuNotCounting :=
  runCpu_eq_fault_iff.mpr ⟨h, rfl⟩

/-- A budget of at least 1 (00_scope R8 (h)) takes at least one CPU step, and the loop ends with the first that reaches
it. -/
theorem cpuLoop_spec_succ {s : State} (h : s.cpuProgress = true) (hbudget : 1 ≤ s.launch.cfg.frameBudget) :
    ∃ n, State.cpuLoop s.cpu.cyc s.cpuFuel s = State.cpuStep^[n + 1] s ∧
      (∀ m < n + 1, (State.cpuStep^[m] s).cpu.cyc - s.cpu.cyc < s.launch.cfg.frameBudget) ∧
      s.launch.cfg.frameBudget ≤ (State.cpuStep^[n + 1] s).cpu.cyc - s.cpu.cyc := by
  obtain ⟨n, heq, hlow, hend⟩ := cpuLoop_spec h
  cases n with
  | zero => simp at hend; omega
  | succ n => exact ⟨n, heq, hlow, hend⟩

/-- Settles O33: the loop is the least number of CPU steps that reaches the budget, the clock having no part in it, and a
CPU step issues its operations by `exec`. -/
theorem runcpuStopsAtBudget : Obligations.RuncpuStopsAtBudget := by
  refine ⟨fun s hbudget hreach => ?_, fun s => rfl, fun s n o ho => ?_, fun s n hlast => ?_⟩
  · have hprogress : s.cpuProgress = true := (cpuProgress_iff s).mpr hreach
    obtain ⟨n, heq, hlow, hend⟩ := cpuLoop_spec_succ hprogress hbudget
    refine ⟨n + 1, s.cpuPhase, Nat.succ_pos n, runCpu_of_progress hprogress, cpuPhase_phase s, cpuPhase_clock s,
      (cpuPhase_eq_cpuLoop s).trans heq, ?_, hlow⟩
    rwa [cpuPhase_cpu, heq]
  · refine ⟨s.busOp o, exec_busOp s o, ?_⟩
    rw [State.stepWithin, ho]
    rfl
  · cases n with
    | zero => rfl
    | succ n =>
      have hop : s.cpu.move.op = none := hlast.resolve_right (Nat.succ_ne_zero n)
      rw [State.stepWithin, hop]
      rfl

/-- Settles O34: the fault is the want of progress, and a counter that rises with every step rises by the budget within as
many steps. -/
theorem runcpuHangsWithoutProgress : Obligations.RuncpuHangsWithoutProgress := by
  refine fun s => ⟨?_, fun hrises => ?_⟩
  · rw [exec_runcpu, runCpu_eq_fault_iff, and_iff_left rfl, ← Bool.not_eq_true, cpuProgress_iff]
    simp only [not_exists, Nat.not_le]
  · have hsteps := (strictMono_nat_of_lt_succ hrises).add_le_nat s.launch.cfg.frameBudget 0
    simp only [Nat.add_zero, Function.iterate_zero, id] at hsteps
    exact ⟨_, runCpu_of_progress ((cpuProgress_iff s).mpr ⟨s.launch.cfg.frameBudget, by omega⟩)⟩

/-- Settles O35: the step before the last left CYC short of the budget, and the last adds one move's cycles. -/
theorem runcpuOvershootsByLessThanOneStep : Obligations.RuncpuOvershootsByLessThanOneStep := by
  intro s t longest hbudget hidle hmoves h
  obtain ⟨hprogress, rfl⟩ := runCpu_eq_next_iff.mp h
  obtain ⟨n, heq, hlow, hend⟩ := cpuLoop_spec_succ hprogress hbudget
  have hshort := hlow n (Nat.lt_succ_self n)
  have hcore := SameCore.iterate_cpuStep n s
  obtain ⟨c, hc, hlast⟩ := cpuStep_cyc_of (P := (· ≤ longest)) (s := State.cpuStep^[n] s)
    (by rwa [hcore.idle]) (by rwa [hcore.moves])
  rw [Function.iterate_succ_apply'] at heq hend
  rw [cpuPhase_cpu, heq]
  omega

/-! ### DRAIN, QUIT and PACE -/

/-- A notification is performed as the operations it is routed to (44_frame_scheduler R198 to R200). -/
theorem execAll_routed_append (s : State) (n : Notification) (rest : List Instr) :
    execAll (routed n ++ rest) s = execAll rest (s.notify n) := by
  cases n <;> rfl

theorem execAll_flatMap_routed (q : List Notification) (s : State) :
    execAll (q.flatMap routed) s = .next (q.foldl State.notify s) := by
  induction q generalizing s with
  | nil => rfl
  | cons n rest ih => rw [List.flatMap_cons, execAll_routed_append, ih, List.foldl_cons]

theorem drainQueue_clock (s : State) :
    s.drainQueue.clock =
      { s.clock with
        now := s.clock.now + s.clock.durations.headD 0, durations := s.clock.durations.tail } := by
  have hclock : (s.evq.foldl State.notify s).clock = s.clock := (congrArg State.clock (foldl_notify_frame s.evq s) :)
  simp only [State.drainQueue, spendTime_clock, hclock]

/-- DRAIN changes the queue, the phase, the matrix, `quit` and the clock at most. -/
theorem drainQueue_frame (s : State) :
    { s.drainQueue with evq := s.evq, phase := s.phase, kbd := s.kbd, quit := s.quit, clock := s.clock } = s :=
  congrArg (fun u : State => { u with evq := s.evq, phase := s.phase, clock := s.clock }) (foldl_notify_frame s.evq s)

theorem drainQueue_quit (s : State) : s.drainQueue.quit = true ↔ s.quit = true ∨ Notification.quit ∈ s.evq :=
  foldl_notify_quit s.evq s

/-- Settles O38: the operations the queue is routed to and DRAIN both leave the matrix and `quit` that the notifications
leave. -/
theorem drainRoutesEveryNotification : Obligations.DrainRoutesEveryNotification := fun s =>
  ⟨_, _, exec_drain s, execAll_flatMap_routed s.evq s, drainQueue_evq s, drainQueue_phase s, rfl, rfl,
    drainQueue_clock s, drainQueue_frame s⟩

/-- Settles O39: only a Quit sets `quit`, and no notification clears it. -/
theorem drainDetectsTermination : Obligations.DrainDetectsTermination := by
  intro s t h
  cases h
  exact drainQueue_quit s

/-- Settles O41. -/
theorem quitSetsFlag : Obligations.QuitSetsFlag := exec_quit

/-- Within the frame period the sleep asked of the host is what is left of it (44_frame_scheduler R201). -/
theorem sleepRemainder_of_lt {s : State} (h : s.clock.now - s.clock.t0 < 20) :
    s.sleepRemainder = { s with clock := { s.clock with
      now := s.clock.now + (20 - (s.clock.now - s.clock.t0))
      sleeps := (20 - (s.clock.now - s.clock.t0)) :: s.clock.sleeps } } := if_pos h

theorem sleepRemainder_of_ge {s : State} (h : 20 ≤ s.clock.now - s.clock.t0) : s.sleepRemainder = s :=
  if_neg (Nat.not_lt.mpr h)

theorem phaseAfterPace_eq_halted_iff {q : Bool} : phaseAfterPace q = .halted ↔ q = true := by
  cases q <;> simp [phaseAfterPace]

theorem phaseAfterPace_eq_runcpu_iff {q : Bool} : phaseAfterPace q = .runcpu ↔ q = false := by
  cases q <;> simp [phaseAfterPace]

/-- PACE changes the phase and the clock at most. -/
theorem paceFrame_frame (s : State) : { s.paceFrame with phase := s.phase, clock := s.clock } = s := by
  unfold State.paceFrame
  rcases Nat.lt_or_ge (s.clock.now - s.clock.t0) 20 with h | h
  · rw [sleepRemainder_of_lt h]
  · rw [sleepRemainder_of_ge h]

/-- Settles O43: the two cases of the sleep and the two of the end-of-frame test. -/
theorem paceSleepsAndTestsQuit : Obligations.PaceSleepsAndTestsQuit := fun s =>
  ⟨_, exec_pace s, phaseAfterPace_eq_halted_iff.mpr, phaseAfterPace_eq_runcpu_iff.mpr,
    fun h => by rw [paceFrame_clock, sleepRemainder_of_lt h], fun h => by rw [paceFrame_clock, sleepRemainder_of_ge h],
    paceFrame_frame s⟩

/-! ### FRAME -/

theorem exec_frame_of_progress {s : State} (h : s.cpuProgress = true) :
    exec .frame s = .next s.cpuPhase.drainQueue.displayPass.paceFrame := exec_frame_eq_next_iff.mpr ⟨h, rfl⟩

/-- A FRAME is stuck where its RUNCPU is (44_frame_scheduler R195). -/
theorem exec_frame_of_no_progress {s : State} (h : s.cpuProgress = false) :
    exec .frame s = .fault .cpuNotCounting := by
  show execFrame s = _
  rw [execFrame, runCpu_of_no_progress h]

/-- Settles O44: DRAIN, DECODE and PACE always answer, so the frame stops where RUNCPU does. -/
theorem frameIsItsFourSteps : Obligations.FrameIsItsFourSteps := by
  intro s
  show execFrame s = _
  rw [execFrame, execAll, exec_runcpu]
  cases s.runCpu <;> rfl

/-- Settles O45: PACE's test finds `quit` as DRAIN left it. -/
theorem frameCompletesAndHaltsOnRequest : Obligations.FrameCompletesAndHaltsOnRequest := by
  intro s hprogress
  refine ⟨_, exec_frame_of_progress hprogress, by simp, by simp, ?_, fun hp => ?_⟩
  · rw [paceFrame_phase, phaseAfterPace_eq_halted_iff, displayPass_quit, drainQueue_quit, cpuPhase_quit, cpuPhase_evq]
  · rw [paceFrame_phase] at hp ⊢
    rwa [phaseAfterPace_eq_runcpu_iff, ← Bool.not_eq_true, ← phaseAfterPace_eq_halted_iff]

/-! ### The steps of the running block -/

/-- With nothing appended by the host, the landing batch changes nothing (log 12). -/
theorem deliver_of_no_arrivals {s : State} (h : s.arrivals = []) : s.deliver = s := by
  rw [State.deliver, h, List.headD_nil, List.append_nil, List.tail_nil, ← h]

/-- With no word presented and nothing appended, a step is the sequencer's own operation. -/
theorem step_quiet {s : State} (ht : s.transport = []) (ha : s.arrivals = []) {p : Phase} (hp : s.phase = p) {i : Instr}
    (ho : ownOperation p = some i) : step s = exec i s := by
  rw [step_own ht hp ho, deliver_of_no_arrivals ha]

theorem displayPass_phase_of_decode {s : State} (hp : s.phase = .decode) : s.displayPass.phase = .pace := by
  rw [displayPass_of_decode hp]

theorem core_run_of_next {s t : State} (h : step s = .next t) (n : Nat) : core.run (n + 1) s = core.run n t := by
  rw [core_run_succ, h]

theorem core_run_of_fault {s : State} {r : Fault} (h : step s = .fault r) (n : Nat) :
    core.run (n + 1) s = .fault r := by
  rw [core_run_succ, h]

/-- Settles O46: each step is the next of FRAME's four operations, in the phase the one before left. -/
theorem fourStepsAreOneFrame : Obligations.FourStepsAreOneFrame := by
  intro s hp ht ha
  have hruncpu : step s = s.runCpu := step_quiet ht ha hp rfl
  have hdrain : step s.cpuPhase = .next s.cpuPhase.drainQueue :=
    step_quiet (by simp [ht]) (by simp [ha]) (cpuPhase_phase s) rfl
  have hdecode : step s.cpuPhase.drainQueue = .next s.cpuPhase.drainQueue.displayPass :=
    step_quiet (by simp [ht]) (by simp [ha]) (drainQueue_phase _) rfl
  have hpace : step s.cpuPhase.drainQueue.displayPass = .next s.cpuPhase.drainQueue.displayPass.paceFrame :=
    step_quiet (by simp [ht]) (by simp [ha]) (displayPass_phase_of_decode (drainQueue_phase _)) rfl
  cases hprogress : s.cpuProgress with
  | true =>
    rw [runCpu_of_progress hprogress] at hruncpu
    rw [core_run_of_next hruncpu, core_run_of_next hdrain, core_run_of_next hdecode, core_run_of_next hpace,
      exec_frame_of_progress hprogress]
    rfl
  | false =>
    rw [runCpu_of_no_progress hprogress] at hruncpu
    exact (core_run_of_fault hruncpu 3).trans (exec_frame_of_no_progress hprogress).symm

theorem loopEdge_pace_phaseAfterPace (q : Bool) : loopEdge .pace (phaseAfterPace q) = true := by
  cases q <;> rfl

/-- In a phase of the loop, with no word presented and a CPU core that makes progress, a step answers and takes an edge of
the loop. -/
theorem step_takes_loopEdge {s : State} (hlive : s.live = true) (hp : s.phase ≠ .halted) (ht : s.transport = [])
    (hprogress : s.cpuProgress = true) : ∃ t, step s = .next t ∧ loopEdge s.phase t.phase = true := by
  cases hphase : s.phase with
  | init => simp [State.live, hphase] at hlive
  | runcpu =>
    refine ⟨s.deliver.cpuPhase, ?_, rfl⟩
    rw [step_own ht hphase rfl, exec_runcpu, runCpu_of_progress (by rwa [deliver_cpuProgress])]
  | drain => exact ⟨_, step_own ht hphase rfl, rfl⟩
  | decode =>
    refine ⟨_, step_own ht hphase rfl, ?_⟩
    rw [displayPass_phase_of_decode (s := s.deliver) hphase]
    rfl
  | pace => exact ⟨_, step_own ht hphase rfl, loopEdge_pace_phaseAfterPace s.deliver.quit⟩
  | halted => exact absurd hphase hp
  | failed => simp [State.live, hphase] at hlive

theorem live_of_loopEdge {p : Phase} {t : State} (h : loopEdge p t.phase = true) : t.live = true := by
  unfold State.live
  revert h
  cases p <;> cases t.phase <;> decide

/-- Settles O59: the step takes an edge of the loop, no edge leads to INIT or FAILED, and every step keeps soundness. -/
theorem runningBlockNeverStops : Obligations.RunningBlockNeverStops := by
  intro s hs hlive hp ht hprogress
  obtain ⟨t, hstep, hedge⟩ := step_takes_loopEdge hlive hp ht hprogress
  exact ⟨t, hstep, stepKeepsSound s t hs hstep, live_of_loopEdge hedge⟩

theorem step_ended {s : State} (ht : s.transport = []) (ho : ownOperation s.phase = none) {r : Fault}
    (hr : stopped s.deliver = .fault r) : step s = .fault r := by
  simp only [step, nextOperation, deliver_transport, ht, deliver_phase, ho, hr]

/-- Settles O8: the sequencer has no operation of its own in HALTED or FAILED. -/
theorem endedRunPerformsNothing : Obligations.EndedRunPerformsNothing := fun s ht =>
  ⟨fun hp => step_ended ht (hp ▸ rfl) (stopped_of_halted (s := s.deliver) hp),
    fun hp => step_ended ht (hp ▸ rfl) (stopped_of_failed (s := s.deliver) hp)⟩

/-! ### Where a step can leave the phase -/

/-- Where each operation, performed where it is enabled, can leave the phase (44_frame_scheduler R191). -/
theorem exec_phase_cases {i : Instr} {s t : State} (he : enabled s.phase i = true) (h : exec i s = .next t) :
    t.phase = s.phase ∨ loopEdge s.phase t.phase = true ∨
      (i = .frame ∧ s.phase = .runcpu ∧ (t.phase = .runcpu ∨ t.phase = .halted)) ∨
      (i = .reset ∧ (t.phase = .runcpu ∨ t.phase = .failed)) ∨
      (i = .rasterize ∧ s.launch.atlasOk = false ∧ t.phase = .failed) := by
  cases i with
  | write a v => cases h; exact .inl (busWrite_phase s a v)
  | read | portinKbd | portinFloat | portout | keydown | keyup | quit => cases h; exact .inl rfl
  | decode =>
    cases h
    by_cases hp : s.phase = .decode
    · rw [displayPass_phase_of_decode hp, hp]; exact .inr (.inl rfl)
    · rw [displayPass_of_ne_decode hp]; exact .inl rfl
  | rasterize =>
    obtain ⟨-, rfl⟩ := ifLegalLaunch_eq_next h
    cases ha : s.launch.atlasOk with
    | true => rw [buildAtlas_of_ok ha]; exact .inl rfl
    | false => rw [buildAtlas_of_fail ha]; exact .inr (.inr (.inr (.inr ⟨rfl, rfl, rfl⟩)))
  | reset =>
    obtain ⟨-, rfl⟩ := ifLegalLaunch_eq_next h
    exact .inr (.inr (.inr (.inl ⟨rfl, initialise_phase _⟩)))
  | frame =>
    obtain ⟨-, rfl⟩ := exec_frame_eq_next_iff.mp h
    refine .inr (.inr (.inl ⟨rfl, beq_iff_eq.mp he, ?_⟩))
    rw [paceFrame_phase]
    cases s.cpuPhase.drainQueue.displayPass.quit
    · exact .inl rfl
    · exact .inr rfl
  | runcpu =>
    obtain ⟨-, rfl⟩ := runCpu_eq_next_iff.mp h
    rw [beq_iff_eq.mp he]
    exact .inr (.inl rfl)
  | drain =>
    cases h
    rw [beq_iff_eq.mp he]
    exact .inr (.inl rfl)
  | pace =>
    cases h
    rw [beq_iff_eq.mp he, paceFrame_phase]
    exact .inr (.inl (loopEdge_pace_phaseAfterPace s.quit))

/-- Settles O47: the landing batch and the fetch touch neither the phase nor the launch, and the operation performed is
enabled. -/
theorem phaseTransitionsComplete : Obligations.PhaseTransitionsComplete := by
  intro s t h
  obtain ⟨i, u, hn, hexec⟩ := step_eq_next h
  obtain ⟨he, rfl⟩ := nextOperation_eq_next hn
  obtain hsame | hedge | ⟨rfl, hframe⟩ | ⟨rfl, hreset⟩ | ⟨rfl, hfail⟩ :=
    exec_phase_cases (s := { s.deliver with transport := s.deliver.transport.tail }) he hexec
  · exact .inl hsame
  · exact .inr (.inl hedge)
  · exact .inr (.inr (.inl ⟨⟨_, hn⟩, hframe⟩))
  · exact .inr (.inr (.inr (.inl ⟨⟨_, hn⟩, hreset⟩)))
  · exact .inr (.inr (.inr (.inr ⟨⟨_, hn⟩, hfail⟩)))

end Sys2Proof.Machine
end

section
/-! Proofs about the arithmetic conventions (45_arithmetic_access_system): the assembly of the display-file pointer. -/
namespace Sys2Proof.Machine

/-! ### The display-file pointer -/

/-- Joining two bytes is `lo + 256 * hi` without a carry: the low byte fits below the shifted high byte
(45_arithmetic_access_system R212). -/
theorem toNat_joinBytes (lo hi : Byte) : (joinBytes lo hi).toNat = lo.toNat + 256 * hi.toNat := by
  have hlo : lo.toNat < 2 ^ 8 := lo.isLt
  calc (joinBytes lo hi).toNat
      = hi.toNat <<< 8 ||| lo.toNat := BitVec.toNat_append hi lo
    _ = hi.toNat <<< 8 + lo.toNat := (Nat.shiftLeft_add_eq_or_of_lt hlo hi.toNat).symm
    _ = lo.toNat + 256 * hi.toNat := by rw [Nat.shiftLeft_eq]; omega

/-- Settles O24: the pointer joins the two bytes it reads, the second one's address being a 16-bit sum. -/
theorem pointerIsLittleEndian : Obligations.PointerIsLittleEndian :=
  fun s => toNat_joinBytes (s.readByte s.launch.cfg.dfilePtrAddr) (s.readByte (s.launch.cfg.dfilePtrAddr + 1))

end Sys2Proof.Machine
end

section
/-! Proofs about exceptions and privilege (60_exceptions): what the emulated program can change and read through RUNCPU,
what a failed RESET reports, and that nothing fails once a session runs. -/
namespace Sys2Proof.Machine

/-! ### What the emulated program can change -/

/-- No move of the CPU core writes to `a`. -/
def CpuCore.NeverWrites (c : CpuCore) (a : Addr) : Prop := ∀ x ∈ c.moves, ∀ v, x.op ≠ some (.write a v)

theorem CpuCore.NeverWrites.of_sameCore {c d : CpuCore} {a : Addr} (h : c.NeverWrites a) (hcore : SameCore c d) :
    d.NeverWrites a := by
  rwa [CpuCore.NeverWrites, hcore.moves]

/-- A core issues the operations of its listed moves only: in a state it does not list, it issues none (log 9). -/
theorem move_mem_of_op {c : CpuCore} {o : BusOp} (h : c.move.op = some o) : c.move ∈ c.moves := by
  unfold CpuCore.move at h ⊢
  by_cases hstate : c.state < c.moves.length
  · simp [hstate]
  · simp [hstate] at h

theorem readByte_busOp_of_ne_write {o : BusOp} {a : Addr} (h : ∀ v, o ≠ .write a v) (s : State) :
    (s.busOp o).readByte a = s.readByte a := by
  cases o with
  | read b => rfl
  | write b v =>
    have hne : a ≠ b := fun hab => h v (hab ▸ rfl)
    exact readByte_busWrite_other hne s v
  | portIn p r => simp only [State.busOp]; split <;> rfl
  | portOut p v => rfl

theorem readByte_stepWithin_of_neverWrites (n : Nat) {s : State} {a : Addr} (h : s.cpu.NeverWrites a) :
    (s.stepWithin n).readByte a = s.readByte a := by
  induction n generalizing s with
  | zero => rfl
  | succ n ih =>
    unfold State.stepWithin
    split
    · rfl
    · next o ho =>
      have hop : ∀ v, o ≠ .write a v := fun v hv => h _ (move_mem_of_op ho) v (hv ▸ ho)
      exact (ih (h.of_sameCore (.issue s o))).trans (readByte_busOp_of_ne_write hop s)

theorem readByte_cpuLoop_of_neverWrites (c0 fuel : Nat) {s : State} {a : Addr} (h : s.cpu.NeverWrites a) :
    (State.cpuLoop c0 fuel s).readByte a = s.readByte a :=
  (cpuLoop_induct (P := fun t => t.cpu.NeverWrites a ∧ t.readByte a = s.readByte a)
    (fun t ⟨ht, hread⟩ => ⟨ht.of_sameCore (.cpuStep t), (readByte_stepWithin_of_neverWrites _ ht).trans hread⟩)
    c0 fuel ⟨h, rfl⟩).2

/-- Loop step 1 leaves memory as its loop of CPU steps does. -/
theorem readByte_cpuPhase (s : State) (a : Addr) :
    s.cpuPhase.readByte a = (State.cpuLoop s.cpu.cyc s.cpuFuel s).readByte a :=
  (congrArg (State.readByte · a) (cpuPhase_eq_cpuLoop s) :)

/-- Settles O36: a bus write is discarded below PROT_BOUNDARY, every other store goes to an address some move writes to,
and the loop changes of the block only memory, the CPU core, the phase and the clock. -/
theorem programChangesOnlyMemory : Obligations.ProgramChangesOnlyMemory := by
  intro s t h
  obtain ⟨-, rfl⟩ := runCpu_eq_next_iff.mp h
  refine ⟨fun a ha => ?_, fun a hnever => ?_, cpuPhase_phase s, (SameBlock.cpuPhase s).eq⟩
  · rw [readByte_cpuPhase, readByte_cpuLoop_protected _ _ _ _ ha]
  · rw [readByte_cpuPhase, readByte_cpuLoop_of_neverWrites _ _ hnever]

/-! ### What the emulated program can read -/

theorem SameForProgram.cpuPhase {s u : State} (h : SameForProgram s u) : SameForProgram s.cpuPhase u.cpuPhase := by
  have ⟨_, _, hcpu, _⟩ := h
  have htimer : SameForProgram s.startTimer u.startTimer := h
  have hloop := htimer.cpuLoop s.cpu.cyc s.cpuFuel
  unfold State.cpuPhase
  rw [h.cpuFuel, hcpu]
  exact hloop

/-- Settles O37: neither whether the loop ends nor any of its steps looks at what the program cannot read. -/
theorem programCannotReadTheRest : Obligations.ProgramCannotReadTheRest := by
  intro s u t hsame h
  obtain ⟨hprogress, rfl⟩ := runCpu_eq_next_iff.mp h
  obtain ⟨hmem, -, hcpu, -⟩ := hsame.cpuPhase
  exact ⟨u.cpuPhase, runCpu_of_progress (hsame.cpuProgress.trans hprogress), hcpu, hmem⟩

/-! ### A failed RESET -/

theorem exec_reset_of_surface {s : State} (hlegal : legalLaunch s.beginSession.launch = true)
    (hs : s.beginSession.launch.surfaceOk = false) :
    exec .reset s = .next (s.beginSession.raiseFatalInit .surface) := by
  rw [exec_reset, ifLegalLaunch_of_legal hlegal, initialise_of_surface hs]

theorem exec_reset_of_atlas {s : State} (hlegal : legalLaunch s.beginSession.launch = true)
    (hs : s.beginSession.launch.surfaceOk = true) (ha : s.beginSession.launch.atlasOk = false) :
    exec .reset s = .next (s.beginSession.raiseFatalInit .atlas) := by
  rw [exec_reset, ifLegalLaunch_of_legal hlegal, initialise_of_atlas hs ha]

/-- Settles O51: the surface is tried before the atlas (60_exceptions R226 (a)), and either failure is `raiseFatalInit` in
the session RESET begins. -/
theorem failedResetReports : Obligations.FailedResetReports := by
  rintro s _ rfl hlegal
  refine ⟨fun hs => ?_, fun hs ha => ?_⟩
  · exact ⟨_, exec_reset_of_surface hlegal hs, raiseFatalInit_phase _ _, raiseFatalInit_failure _ _,
      raiseFatalInit_exitStatus _ _⟩
  · exact ⟨_, exec_reset_of_atlas hlegal hs ha, raiseFatalInit_phase _ _, raiseFatalInit_failure _ _,
      raiseFatalInit_exitStatus _ _⟩

/-! ### A running session -/

theorem live_of_phase_eq {s t : State} (hs : s.live = true) (h : t.phase = s.phase) : t.live = true := by
  rwa [State.live, h]

theorem displayPass_live {s : State} (hs : s.live = true) : s.displayPass.live = true := by
  by_cases hp : s.phase = .decode
  · rw [displayPass_of_decode hp]; rfl
  · rw [displayPass_of_ne_decode hp]; exact live_of_phase_eq hs rfl

/-- PACE ends in RUNCPU or HALTED, from any phase (44_frame_scheduler R203). -/
theorem paceFrame_live (s : State) : s.paceFrame.live = true :=
  live_of_loopEdge (p := .pace) (loopEdge_pace_phaseAfterPace s.quit)

/-- Settles O58: RASTERIZE could fail only where the launch or the host had made RESET fail before it, RUNCPU and FRAME
are stuck only without progress, and no other operation has a way to stop. -/
theorem nothingFailsOnceRunning : Obligations.NothingFailsOnceRunning := by
  intro i s hsound hlive hprogress hi
  cases i with
  | write a v => exact ⟨_, rfl, live_of_phase_eq hlive (busWrite_phase s a v)⟩
  | read | portinKbd | portinFloat | portout | keydown | keyup | quit => exact ⟨_, rfl, live_of_phase_eq hlive rfl⟩
  | decode => exact ⟨_, rfl, displayPass_live hlive⟩
  | rasterize =>
    obtain ⟨hlegal, -, hatlas⟩ := hsound.launched hlive
    exact ⟨_, exec_rasterize_of_ok hlegal hatlas, live_of_phase_eq hlive rfl⟩
  | reset => exact absurd rfl hi
  | frame => exact ⟨_, exec_frame_of_progress hprogress, paceFrame_live _⟩
  | runcpu => exact ⟨_, runCpu_of_progress hprogress, rfl⟩
  | drain => exact ⟨_, rfl, rfl⟩
  | pace => exact ⟨_, rfl, paceFrame_live s⟩

end Sys2Proof.Machine
end

section
/-! Proofs about reset and hazards (70_reset_and_hazards): what RESET leaves, keys that share a matrix bit, a press and
release within one DRAIN, and that the host clock decides nothing but itself. -/
namespace Sys2Proof.Machine

/-! ### No duration changes anything but the clock -/

/-- Given another clock, `f` answers the same state but for the clock. -/
def ClockBlind (f : State → State) : Prop := ∀ (s : State) (c : HostClock), ∃ c', f (s.setClock c) = (f s).setClock c'

theorem ClockBlind.of_commutes {f : State → State} (h : ∀ s c, f (s.setClock c) = (f s).setClock c) : ClockBlind f :=
  fun s c => ⟨c, h s c⟩

theorem ClockBlind.comp {f g : State → State} (hg : ClockBlind g) (hf : ClockBlind f) : ClockBlind (g ∘ f) := by
  intro s c
  obtain ⟨c₁, h₁⟩ := hf s c
  obtain ⟨c₂, h₂⟩ := hg (f s) c₁
  exact ⟨c₂, (congrArg g h₁).trans h₂⟩

/-- What a clock-blind function answers is the same up to the clock whatever clock it is given. -/
theorem ClockBlind.withClock_next {f : State → State} (h : ClockBlind f) (s : State) (c d : HostClock) :
    withClock d (.next (f (s.setClock c))) = withClock d (.next (f s)) := by
  obtain ⟨c', h'⟩ := h s c
  rw [h', withClock, withClock, setClock_setClock]

theorem clockBlind_busOp (o : BusOp) : ClockBlind (State.busOp · o) := .of_commutes fun s c => busOp_setClock s c o

/-- The timer starts from the clock given, and the loop of CPU steps does not look at it (44_frame_scheduler R190,
R192). -/
theorem clockBlind_cpuPhase : ClockBlind State.cpuPhase := by
  intro s c
  have hloop := cpuLoop_setClock s.cpu.cyc s.cpuFuel s.startTimer { c with t0 := c.now }
  exact ⟨_, congrArg (fun u : State => { u.spendTime with phase := .drain }) hloop⟩

theorem clockBlind_drainQueue : ClockBlind State.drainQueue := by
  intro s c
  have hqueue := foldl_notify_setClock s.evq s c
  exact ⟨_, congrArg (fun u : State => { u.spendTime with evq := [], phase := .decode }) hqueue⟩

theorem redraw_setClock (s : State) (c : HostClock) : (s.setClock c).redraw = s.redraw.setClock c := by
  rw [State.redraw, displayFrame_setClock]
  rfl

theorem clockBlind_displayPass : ClockBlind State.displayPass := by
  intro s c
  by_cases hp : s.phase = .decode
  · rw [displayPass_of_decode hp, displayPass_of_decode (s := s.setClock c) hp, redraw_setClock]
    exact ⟨_, rfl⟩
  · rw [displayPass_of_ne_decode hp, displayPass_of_ne_decode (s := s.setClock c) hp]
    exact ⟨c, redraw_setClock s c⟩

/-- What PACE answers but for the clock: only the test of `quit` (44_frame_scheduler R203). -/
theorem paceFrame_eq_setClock (s : State) :
    s.paceFrame = { s with phase := phaseAfterPace s.quit }.setClock s.paceFrame.clock :=
  congrArg (fun u : State => { u with phase := phaseAfterPace s.quit, clock := s.paceFrame.clock }) (paceFrame_frame s)

theorem clockBlind_paceFrame : ClockBlind State.paceFrame := by
  intro s c
  rw [paceFrame_eq_setClock s, paceFrame_eq_setClock (s.setClock c)]
  exact ⟨_, rfl⟩

/-- A frame is clock-blind as each of its four steps is (44_frame_scheduler R190). -/
theorem clockBlind_frame : ClockBlind fun s => s.cpuPhase.drainQueue.displayPass.paceFrame :=
  clockBlind_paceFrame.comp (clockBlind_displayPass.comp (clockBlind_drainQueue.comp clockBlind_cpuPhase))

theorem clockBlind_buildAtlas : ClockBlind State.buildAtlas := by
  intro s c
  cases ha : s.launch.atlasOk with
  | true => rw [buildAtlas_of_ok ha, buildAtlas_of_ok (s := s.setClock c) ha]; exact ⟨c, rfl⟩
  | false => rw [buildAtlas_of_fail ha, buildAtlas_of_fail (s := s.setClock c) ha]; exact ⟨c, rfl⟩

/-- The check of the launch looks at the launch only. -/
theorem withClock_ifLegalLaunch (l : Launch) {s t : State} {d : HostClock}
    (h : withClock d (.next t) = withClock d (.next s)) :
    withClock d (ifLegalLaunch l t) = withClock d (ifLegalLaunch l s) := by
  unfold ifLegalLaunch
  split
  · rfl
  · split
    · rfl
    · exact h

/-- Each operation's meaning is a clock-blind function, and where it can stop the clock is not looked at. -/
theorem withClock_exec_setClock (i : Instr) (s : State) (c d : HostClock) :
    withClock d (exec i (s.setClock c)) = withClock d (exec i s) := by
  cases i with
  | write a v => exact (clockBlind_busOp (.write a v)).withClock_next s c d
  | read | portinKbd | portinFloat | portout | keydown | keyup | quit | reset => rfl
  | decode => exact clockBlind_displayPass.withClock_next s c d
  | rasterize => exact withClock_ifLegalLaunch s.launch (clockBlind_buildAtlas.withClock_next s c d)
  | runcpu =>
    have hsame := setClock_cpuProgress s c
    cases hprogress : s.cpuProgress with
    | true =>
      rw [exec_runcpu, exec_runcpu, runCpu_of_progress hprogress, runCpu_of_progress (hsame.trans hprogress)]
      exact clockBlind_cpuPhase.withClock_next s c d
    | false =>
      rw [exec_runcpu, exec_runcpu, runCpu_of_no_progress hprogress, runCpu_of_no_progress (hsame.trans hprogress)]
  | frame =>
    have hsame := setClock_cpuProgress s c
    cases hprogress : s.cpuProgress with
    | true =>
      rw [exec_frame_of_progress hprogress, exec_frame_of_progress (hsame.trans hprogress)]
      exact clockBlind_frame.withClock_next s c d
    | false => rw [exec_frame_of_no_progress hprogress, exec_frame_of_no_progress (hsame.trans hprogress)]
  | drain => exact clockBlind_drainQueue.withClock_next s c d
  | pace => exact clockBlind_paceFrame.withClock_next s c d

/-- The fetched operation with the host clock of the state it is performed in replaced. -/
def fetchWithClock (c : HostClock) :
    Host.Outcome (Instr × State) Fault Refusal → Host.Outcome (Instr × State) Fault Refusal
  | .next (i, t) => .next (i, t.setClock c)
  | .fault r => .fault r
  | .refused r => .refused r

theorem stopped_setClock (s : State) (c : HostClock) : stopped (s.setClock c) = fetchWithClock c (stopped s) := by
  unfold stopped
  cases hp : s.phase <;> simp only [setClock_phase, hp] <;> rfl

/-- The fetch looks at the transport and the phase only. -/
theorem nextOperation_setClock (s : State) (c : HostClock) :
    nextOperation (s.setClock c) = fetchWithClock c (nextOperation s) := by
  unfold nextOperation
  rw [setClock_transport, setClock_phase, stopped_setClock]
  split
  · split
    · rfl
    · split <;> rfl
  · split <;> rfl

/-- Settles O48: the landing batch and the fetch do not look at the clock, and every operation is clock-blind. -/
theorem timeChangesOnlyTheClock : Obligations.TimeChangesOnlyTheClock := by
  intro s c d
  rw [step, step, setClock_deliver, nextOperation_setClock]
  cases nextOperation s.deliver with
  | next p => exact withClock_exec_setClock p.1 p.2 c d
  | fault r => rfl
  | refused r => rfl

/-! ### Keys that share a bit -/

/-- The state key events leave. -/
def State.afterEvents (s : State) (events : List KeyEvent) : State :=
  { s with kbd := events.foldl (KeyEvent.apply s.launch.cfg) s.kbd }

theorem execAll_afterEvents (events : List KeyEvent) (s : State) :
    execAll (events.map KeyEvent.op) s = .next (s.afterEvents events) := execAll_keyEvents events s

/-- The last of some key events decides the bits its key drives (41_keyboard_matrix R139). -/
theorem matrixBit_afterEvents_append (s : State) (events : List KeyEvent) (e : KeyEvent) (row : Row) (col : Nat) :
    matrixBit (s.afterEvents (events ++ [e])).kbd row col =
      if ∃ b ∈ drivenBits s.launch.cfg e.1, b.1 = row ∧ b.2.val = col then !e.2
      else matrixBit (s.afterEvents events).kbd row col := by
  rw [State.afterEvents, List.foldl_append]
  exact matrixBit_apply s.launch.cfg _ e row col

/-- A bit is released by a KEYUP of any key that drives it, whatever other keys are held (R262). -/
theorem matrixBit_afterEvents_release {s : State} {k : KeyId} {b : Row × Col} (hb : b ∈ drivenBits s.launch.cfg k)
    (events : List KeyEvent) : matrixBit (s.afterEvents (events ++ [(k, false)])).kbd b.1 b.2.val = true :=
  (matrixBit_afterEvents_append s events (k, false) b.1 b.2.val).trans (if_pos ⟨b, hb, rfl, rfl⟩)

/-- Settles O22: the last event of each sequence is a KEYUP, which sets the bits its key drives and no other. -/
theorem sharedBitReleasesEarly : Obligations.SharedBitReleasesEarly := by
  intro s j k
  have herase : drivenBits s.launch.cfg s.launch.cfg.eraseKey = [(0, 0), (4, 0)] := drivenBits_eraseKey s.launch.cfg
  have hdrives : ((0, 0) : Row × Col) ∈ drivenBits s.launch.cfg s.launch.cfg.eraseKey := by
    rw [herase]; exact List.mem_cons_self
  refine ⟨fun b hj hk first second hpair => ?_, fun _ _ => ?_, fun hne h => ?_⟩
  · have hfirst : b ∈ drivenBits s.launch.cfg first := by
      rcases List.mem_pair.mp hpair with h | h <;> cases h
      · exact hj
      · exact hk
    have hbit := matrixBit_afterEvents_release hfirst [(j, true), (k, true)]
    refine ⟨_, execAll_afterEvents [(j, true), (k, true), (first, false)] s, hbit, fun honly => ?_⟩
    refine congrArg Host.Outcome.next (releaseKey_of_released fun b' hb' => ?_)
    rw [List.mem_singleton.mp (honly ▸ hb' : b' ∈ [b])]
    exact hbit
  · exact ⟨_, execAll_afterEvents [(k, true), (s.launch.cfg.eraseKey, true), (s.launch.cfg.eraseKey, false)] s,
      matrixBit_afterEvents_release hdrives [(k, true), (s.launch.cfg.eraseKey, true)]⟩
  · have hk : drivenBits s.launch.cfg k = [(4, 0)] := drivenBits_mapped hne h
    have hmem : ((4, 0) : Row × Col) ∈ drivenBits s.launch.cfg k := by rw [hk]; exact List.mem_cons_self
    have hpressed := matrixBit_afterEvents_append s [] (s.launch.cfg.eraseKey, true) 0 0
    have hkept := matrixBit_afterEvents_append s [(s.launch.cfg.eraseKey, true)] (k, false) 0 0
    rw [if_pos ⟨_, hdrives, rfl, rfl⟩] at hpressed
    rw [hk, if_neg (by decide)] at hkept
    exact ⟨_, execAll_afterEvents [(s.launch.cfg.eraseKey, true), (k, false)] s, hkept.trans hpressed,
      matrixBit_afterEvents_release hmem [(s.launch.cfg.eraseKey, true)]⟩

/-! ### A press and a release within one DRAIN -/

/-- Settles O40: DRAIN performs the operations its queue is routed to, a KEYDOWN and a KEYUP of one key, and these restore
released bits (41_keyboard_matrix R138). -/
theorem pressReleaseInOneDrainInvisible : Obligations.PressReleaseInOneDrainInvisible := by
  intro s k hq hreleased
  have hrouted : execAll [.keydown k, .keyup k] s = .next (s.evq.foldl State.notify s) := by
    rw [hq]
    exact execAll_flatMap_routed [.keyDown k, .keyUp k] s
  have hsame : s.evq.foldl State.notify s = s :=
    Host.Outcome.next.inj (hrouted.symm.trans ((pressReleaseRestoresReleasedBits s k).1 hreleased))
  exact ⟨_, exec_drain s, (congrArg State.kbd hsame :)⟩

/-! ### RESET -/

/-- Settles O49: RESET begins the launch's session, whose memory lists nothing and so reads as the reset contents
everywhere, and builds the atlas. -/
theorem resetLeavesSpecifiedValues : Obligations.ResetLeavesSpecifiedValues := by
  rintro s _ rfl hlegal hs ha
  exact ⟨_, exec_reset_of_ok hlegal hs ha, rfl, rfl, rfl, rfl, rfl, rfl, rfl, rfl, fun a => memRead_nil _ a.toNat,
    rfl, rfl, rfl, rfl, rfl, rfl, rfl⟩

/-- Settles O50: a RESET leaves a sound state, and in a live one the ROM and its mirror hold the image. -/
theorem resetCopiesRomTwice : Obligations.ResetCopiesRomTwice := by
  intro s t h hp
  have hlive : t.live = true := by rw [State.live, hp]; rfl
  exact (romAndMirrorNeverDiverge 0 t t (exec_reset_sound h) rfl hlive).2

end Sys2Proof.Machine
end
